-- ==== Sys2Proof/Word.lean ====
section
/-! DEFINITION. The bit-vector types of the block's registers and bus (spec/00_scope.md R12: u8, u16, u32,
every value unsigned). -/

namespace Sys2Proof

/-- u8 (R12): a frame byte, a byte field of HDR or DEC. -/
abbrev Byte := BitVec 8

/-- u16 (R12): the running CRC. -/
abbrev Half := BitVec 16

/-- u32 (R12): a command word, a register as the bus sees it. -/
abbrev Word := BitVec 32

/-- The 9-bit VALUE field of PLEN and FLEN (R35, R36). -/
abbrev Len := BitVec 9

/-- The 12-bit byte offset that the block decodes (R9). -/
abbrev Offset := BitVec 12

end Sys2Proof
end

