-- ==== Sys2Proof/Syntax.lean ====
section
/-! DEFINITION. The six commands of the block (spec/30_encoding.md R74), one constructor for each row of
spec/opcode_table.json. -/

namespace Sys2Proof

/-- A command (R74). IMM8, the only immediate, is one unsigned byte (R72). -/
inductive Instr where
  /-- NOP (R150). -/
  | nop
  /-- CRC_INIT (R103). -/
  | crcInit
  /-- CRC_FEED b (R104), `b` the byte IMM8. -/
  | crcFeed (b : Byte)
  /-- CRC_BUF (R105). -/
  | crcBuf
  /-- ENCODE (R122). -/
  | encode
  /-- DECODE (R123). -/
  | decode
  deriving DecidableEq, Repr

end Sys2Proof
end

