-- ==== Sys2Proof/WellFormed.lean ====
section
/-! DEFINITION. What a legal command word is, said by the fields of spec/30_encoding.md R70 and the conditions of
R71 and R73 (not by the masks of R74, which the decoder follows), and what a legal assembler line is (R80).
A term of `Instr` needs no check of its own: its one operand is a byte by its type (log 9). -/

namespace Sys2Proof

/-- The fields of a command word (R70). -/
structure CmdFields where
  rsv1 : BitVec 16
  imm8 : Byte
  rsv0 : BitVec 4
  op   : BitVec 4
  deriving DecidableEq, Repr

/-- The word that holds these fields, RSV1 in the top bits (R70). -/
def CmdFields.word (f : CmdFields) : Word := f.rsv1 ++ f.imm8 ++ f.rsv0 ++ f.op

/-- The fields of a word (R70). -/
def CmdFields.ofWord (w : Word) : CmdFields :=
  { rsv1 := w.extractLsb' 16 16, imm8 := w.extractLsb' 8 8, rsv0 := w.extractLsb' 4 4, op := w.extractLsb' 0 4 }

/-- OP selects a command: 0x0 to 0x5 (R71). -/
def CmdFields.opKnown (f : CmdFields) : Bool := decide (f.op.toNat ≤ 5)

/-- RSV1 is zero (R73). -/
def CmdFields.rsv1Zero (f : CmdFields) : Bool := f.rsv1 == 0

/-- RSV0 is zero (R73). -/
def CmdFields.rsv0Zero (f : CmdFields) : Bool := f.rsv0 == 0

/-- IMM8 is zero unless the opcode is CRC_FEED's (R73). -/
def CmdFields.imm8Fits (f : CmdFields) : Bool := f.op == 2 || f.imm8 == 0

/-- The fields spell a legal command (R71, R73). -/
def CmdFields.wellFormed (f : CmdFields) : Bool :=
  f.opKnown && f.rsv1Zero && f.rsv0Zero && f.imm8Fits

/-- An assembler line for one command (R80): the operand of `crc.feed` and of `.cmd` is a number as it is written. -/
inductive AsmLine where
  | nop
  | crcInit
  | crcFeed (b : Nat)
  | crcBuf
  | frameEnc
  | frameDec
  /-- The raw directive `.cmd <u32>`, which writes any word. -/
  | cmd (w : Nat)
  deriving DecidableEq, Repr

/-- The line is no assembly error (R80): the operand of `crc.feed` is 0 to 255, that of `.cmd` a u32. -/
def AsmLine.wellFormed : AsmLine → Bool
  | .crcFeed b => decide (b < 256)
  | .cmd w => decide (w < 4294967296)
  | .nop | .crcInit | .crcBuf | .frameEnc | .frameDec => true

end Sys2Proof
end

