-- ==== Sys2Proof/Decode.lean ====
section
/-! DEFINITION. The decoder of spec/30_encoding.md R75, total on all 2^32 words, and the encoder of R74 and R80. -/

namespace Sys2Proof

/-- What a command word is (the `Cmd` of R75): one of the six commands, or ILLEGAL with the word itself. -/
inductive Cmd where
  | instr (i : Instr)
  | illegal (w : Word)
  deriving DecidableEq, Repr

/-- A row of the opcode table of R74: a word `w` selects it when `(w & mask) == match`. -/
structure OpcodeRow where
  pattern : Word
  mask    : Word
  deriving DecidableEq, Repr

/-- Does the word select the row (R74)? -/
def OpcodeRow.selects (r : OpcodeRow) (w : Word) : Bool := (w &&& r.mask) == r.pattern

def rowNop : OpcodeRow := ⟨0x00000000#32, 0xFFFFFFFF#32⟩
def rowCrcInit : OpcodeRow := ⟨0x00000001#32, 0xFFFFFFFF#32⟩
def rowCrcFeed : OpcodeRow := ⟨0x00000002#32, 0xFFFF00FF#32⟩
def rowCrcBuf : OpcodeRow := ⟨0x00000003#32, 0xFFFFFFFF#32⟩
def rowEncode : OpcodeRow := ⟨0x00000004#32, 0xFFFFFFFF#32⟩
def rowDecode : OpcodeRow := ⟨0x00000005#32, 0xFFFFFFFF#32⟩

/-- The table of R74, in its order. -/
def opcodeRows : List OpcodeRow := [rowNop, rowCrcInit, rowCrcFeed, rowCrcBuf, rowEncode, rowDecode]

/-- IMM8 = w[15:8] (R72), used unchanged. -/
def imm8Of (w : Word) : Byte := w.extractLsb' 8 8

/-- `decode_cmd` (R75): the rows are tried in the order of the rule; every other word is ILLEGAL (R76). -/
def decodeCmd (w : Word) : Cmd :=
  if rowNop.selects w then .instr .nop
  else if rowCrcInit.selects w then .instr .crcInit
  else if rowCrcFeed.selects w then .instr (.crcFeed (imm8Of w))
  else if rowCrcBuf.selects w then .instr .crcBuf
  else if rowEncode.selects w then .instr .encode
  else if rowDecode.selects w then .instr .decode
  else .illegal w

/-- The fields of a command's word (R70, R74): OP and IMM8, the reserved fields zero (R73). -/
def Instr.fields : Instr → CmdFields
  | .nop => ⟨0, 0, 0, 0⟩
  | .crcInit => ⟨0, 0, 0, 1⟩
  | .crcFeed b => ⟨0, b, 0, 2⟩
  | .crcBuf => ⟨0, 0, 0, 3⟩
  | .encode => ⟨0, 0, 0, 4⟩
  | .decode => ⟨0, 0, 0, 5⟩

/-- The word of a command (R74, R80). -/
def encode (i : Instr) : Word := i.fields.word

/-- The command word of an opcode-table row's bits: bit 0 is the least significant bit of the one 32-bit word, and
bits above `nbits` are 0. A command is written to CMD as one bus word, so no byte order enters (R70, R77). -/
def tableWord (nbits w : Nat) : Word := BitVec.ofNat 32 (w % 2 ^ nbits)

/-- The command the decoder reads from an opcode-table row's bits; none for ILLEGAL, and none where more bits are
asked for than a command has (R70: every command is exactly 32 bits). -/
def decodeTableWord (nbits w : Nat) : Option Instr :=
  if nbits ≤ 32 then
    match decodeCmd (tableWord nbits w) with
    | .instr i => some i
    | .illegal _ => none
  else none

end Sys2Proof
end

