-- ==== Sys2Proof/Config.lean ====
section
/-! DEFINITION. The implementation parameters of spec/00_scope.md section 3, the register map of
spec/10_state.md R22, and the values the spec leaves open. -/

namespace Sys2Proof.Config

/-- `BUF_SIZE` (R6). -/
def bufSize : Nat := 256

/-- `MIN_FLEN` (R7). -/
def minFlen : Nat := 4

/-- `MAX_FLEN = BUF_SIZE` (R8). -/
def maxFlen : Nat := bufSize

/-- `MAX_PLEN = MAX_FLEN - 4` (R8, 90_conflicts.md C1). -/
def maxPlen : Nat := maxFlen - 4

/-- The size of the block's window: 4 KiB (R9). -/
def windowSize : Nat := 4096

/-- The seed of the CRC (R101), also the reset value of CRC.VALUE (R33). -/
def crcSeed : Half := 0xFFFF#16

/-- The reflected polynomial constant (R100). -/
def crcPoly : Half := 0xA001#16

/-! The register map (R22). -/

def offCmd : Offset := 0x000#12
def offStatus : Offset := 0x004#12
def offCrc : Offset := 0x008#12
def offHdr : Offset := 0x00C#12
def offPlen : Offset := 0x010#12
def offFlen : Offset := 0x014#12
def offDec : Offset := 0x018#12

/-- BUF[0] stands at this offset (R32). -/
def bufBase : Nat := 0x100

/-- The first offset after BUF (R22). -/
def bufEnd : Nat := 0x200

/-- The number of the 4 KiB page at which the platform puts the window. OPEN (R10, U4): no body, so nothing can
be proved of its value. -/
opaque mbPage : Nat

/-- `MB_BASE` (R10): the host address of offset 0, aligned to 4096. -/
def mbBase : Nat := windowSize * mbPage

/-! `LATENCY` (R11, U3) is no constant here: it may differ per command and per run, and it is the number of turns that
stand before the engine's turn in `State.turns`. -/

/-- The free values (log 5): the `n`-th value drawn where the spec says "unspecified value" (R196, U1, U2, U10).
No body: nothing can be proved of any of them. -/
opaque freeValue : Nat → Word

end Sys2Proof.Config
end

