-- ==== Sys2Proof/Machine/State.lean ====
section
/-! DEFINITION. The state of the machine: the five things of spec/10_state.md R40 (the STATUS fields, the data
registers, BUF, CUR, the model's fault flag), and beside them the model's own record of the block's ports: the host's
lines still to be issued, which agent moves next, the bus responses given so far, and the number of free values drawn.
Plain data throughout. -/

namespace Sys2Proof.Machine

/-- The stored fields of STATUS (R25 to R30). BUSY is `State.busy`; bits 7:6 and 31:12 hold nothing (R31). -/
structure Status where
  done    : Bool
  err     : Bool
  berr    : Bool
  exc     : Bool
  excv    : Bool
  errcode : BitVec 4
  deriving DecidableEq, Repr

/-- HDR (R34). -/
structure Hdr where
  addr : Byte
  func : Byte
  deriving DecidableEq, Repr

/-- DEC (R37). -/
structure Dec where
  addr    : Byte
  func    : Byte
  exccode : Byte
  deriving DecidableEq, Repr

/-- The outcome codes (R160). -/
inductive ErrCode where
  | none
  | invalidData
  | crcMismatch
  | lenRange
  | illegalCmd
  deriving DecidableEq, Repr

/-- BUF (R32): the written bytes, as (index, byte), in strictly rising order of the index; a byte that is not listed is
unwritten. -/
abbrev Memory := List Host.Cell

/-- The width of a host access: 1, 2 or 4 bytes (R13, R50). -/
inductive Width where
  | w8
  | w16
  | w32
  deriving DecidableEq, Repr

/-- A host access at a byte offset of the window: `MemWrite(off, n, v)` and `MemRead(off, n)` (R13, R81). Of `v` the
low `n` bytes count. -/
inductive Access where
  | write (n : Width) (off : Offset) (v : Word)
  | read (n : Width) (off : Offset)
  deriving DecidableEq, Repr

/-- What the bus answers to an access. -/
inductive Response where
  /-- A write took the normal response. -/
  | ok
  /-- A read returned this value. -/
  | data (v : Word)
  /-- `raise BusError(off, n)` (R13, R53, R166). -/
  | busError (off : Offset) (n : Width)
  /-- Reset ended the access (R191, U10): it was not performed, and a read returned any value. -/
  | aborted (v : Option Word)
  deriving DecidableEq, Repr

/-- A line of the host's program (R81, R82). -/
inductive HostLine where
  /-- W8, W16, W32, R8, R16, R32. -/
  | access (a : Access)
  /-- WAIT: read STATUS until DONE = 1. -/
  | wait
  deriving DecidableEq, Repr

/-- Who moves next (R5, R52, R191). -/
inductive Turn where
  /-- The host issues its next access. -/
  | host
  /-- The engine completes the command in flight. -/
  | engine
  /-- The reset input is asserted between two accesses. -/
  | reset
  /-- The reset input is asserted while the host's next access is in progress. -/
  | resetInAccess
  deriving DecidableEq, Repr

/-- The whole machine. -/
structure State where
  status        : Status
  /-- CRC.VALUE (R33). -/
  crc           : Half
  hdr           : Hdr
  /-- PLEN.VALUE (R35). -/
  plen          : Len
  /-- FLEN.VALUE (R36). -/
  flen          : Len
  dec           : Dec
  buf           : Memory
  /-- CUR (R39): the command word in flight, or no command. -/
  cur           : Option Word
  /-- The model's fault flag (R40, R167): `some i` once `UnwrittenRead(i)` has been raised. -/
  unwrittenRead : Option Nat
  /-- The number of free values drawn so far (the model's own, log 5). -/
  draws         : Nat
  /-- The host's lines still to be issued (the model's own, log 6). -/
  program       : List HostLine
  /-- Which agent moves next (the model's own, log 6). -/
  turns         : List Turn
  /-- The accesses issued and the response to each, newest first (the model's own, log 6). -/
  trace         : List (Access × Response)
  deriving DecidableEq, Repr

/-- Why the machine stops. -/
inductive Fault where
  /-- Raised by `step` alone, in a state whose STATUS.ERRCODE holds 5 to 15. Such a state is unreachable (R30), and
  spec/93_implementation_defined.md U8 gives it no step. SAFE: the model stops where the spec has no behaviour. -/
  | reservedErrCode
  deriving DecidableEq, Repr

/-- What the model gives no meaning to. -/
inductive Refusal where
  /-- An instruction without a meaning yet. Raised by nothing: every command has its meaning. SAFE. -/
  | notModelled (mnemonic : String)
  deriving DecidableEq, Repr

/-- STATUS after reset (R190). -/
def Status.reset : Status :=
  { done := false, err := false, berr := false, exc := false, excv := false, errcode := 0 }

/-- The machine right after reset (R190, R191): idle, CRC.VALUE the seed, every BUF byte unwritten, no command in
flight. The model's own fields: no fault raised, nothing drawn, no host program placed (logs 5 and 6). -/
def State.reset : State :=
  { status := Status.reset
    crc := Config.crcSeed
    hdr := ⟨0, 0⟩
    plen := 0
    flen := 0
    dec := ⟨0, 0, 0⟩
    buf := []
    cur := Option.none
    unwrittenRead := Option.none
    draws := 0
    program := []
    turns := []
    trace := [] }

end Sys2Proof.Machine
end

