-- ==== Sys2Proof/Machine/Ops.lean ====
section
/-! DEFINITION. The shared operations of the machine: BUF as memory, free values, the model's fault flag, and the
command lifecycle of spec/60_exceptions.md (acceptance R161, completion R162).
The block takes no trap: an error saves no program counter, changes no mode and redirects nothing (R164), so
`complete` is the one operation that records an error, and `accept` and the W1C write of `Flags.lean` are the two that
clear the record (R165). -/

namespace Sys2Proof.Machine

/-- STATUS.BUSY (R24): a command is in flight (R39). -/
def State.busy (s : State) : Bool := s.cur.isSome

/-! ## BUF as memory (R32) -/

/-- The canonical form: indices strictly rising, all of them below BUF_SIZE. -/
abbrev Memory.wf (m : Memory) : Prop :=
  m.Pairwise (fun x y => x.1 < y.1) ∧ ∀ c ∈ m, c.1 < Config.bufSize

/-- The value of byte `i`, or none while it is unwritten (R32). -/
def Memory.read : Memory → Nat → Option Byte
  | [], _ => none
  | c :: m, i => if i = c.1 then some c.2 else Memory.read m i

/-- `BUF[i] <- b`: the byte becomes written (R32). Keeps the canonical form. -/
def Memory.write : Memory → Nat → Byte → Memory
  | [], i, b => [(i, b)]
  | c :: m, i, b =>
    if i < c.1 then (i, b) :: c :: m
    else if i = c.1 then (i, b) :: m
    else c :: Memory.write m i b

/-- Bytes stored at rising indices from `i`. -/
def Memory.writeBytes : Memory → Nat → List Byte → Memory
  | m, _, [] => m
  | m, i, b :: bs => Memory.writeBytes (m.write i b) (i + 1) bs

/-- Byte `k` of a word, counted from the low end: `v[8*k+7 : 8*k]` (R55). -/
def byteOf (v : Word) (k : Nat) : Byte := v.extractLsb' (8 * k) 8

/-- The low `n` bytes of a word, lowest first (R55). -/
def bytesOf (v : Word) (n : Nat) : List Byte := (List.range n).map (byteOf v)

/-- The word whose byte `k` is the list's `k`-th byte: the sum of R54. -/
def wordOf : List Byte → Word
  | [] => 0
  | b :: bs => b.setWidth 32 ||| wordOf bs <<< 8

/-! ## Free values and the model's fault flag -/

/-- A free value: one fresh draw (R196, U1, U2, U10; log 5). -/
def draw (s : State) : Word × State :=
  (Config.freeValue s.draws, { s with draws := s.draws + 1 })

/-- A free byte. -/
def drawByte (s : State) : Byte × State := ((draw s).1.setWidth 8, (draw s).2)

/-- `n` free bytes, each its own draw. -/
def drawBytes : Nat → State → List Byte × State
  | 0, s => ([], s)
  | n + 1, s => ((drawByte s).1 :: (drawBytes n (drawByte s).2).1, (drawBytes n (drawByte s).2).2)

/-- Raise `UnwrittenRead(i)` (R32, R167). A flag already raised keeps the index it was raised with: it is never
cleared once set (R40; log 1). -/
def raiseUnwritten (i : Nat) (s : State) : State :=
  { s with unwrittenRead := s.unwrittenRead.or (some i) }

/-! ## The command lifecycle -/

/-- The value of an outcome code in ERRCODE (R30, R160). -/
def ErrCode.bits : ErrCode → BitVec 4
  | .none => 0
  | .invalidData => 1
  | .crcMismatch => 2
  | .lenRange => 3
  | .illegalCmd => 4

/-- Acceptance of the word `w` (R161): CUR latches it; DONE, ERR and ERRCODE are cleared; BERR, EXC, EXCV, every data
register and every BUF byte are unchanged. -/
def accept (w : Word) (s : State) : State :=
  { s with
    cur := some w
    status := { s.status with done := false, err := false, errcode := 0 } }

/-- `complete(code)` (R162): the outcome is recorded, DONE set, BUSY cleared; EXC, EXCV and BERR are unchanged. -/
def complete (code : ErrCode) (s : State) : State :=
  { s with
    cur := none
    status := { s.status with errcode := code.bits, err := decide (code ≠ ErrCode.none), done := true } }

/-- The block's part of the state as R190 leaves it. The model's fault flag is a fact about the run, and reset does not
clear it (R167, R190); nor does reset touch what stands outside the block. -/
def resetBlock (s : State) : State :=
  { State.reset with
    unwrittenRead := s.unwrittenRead
    draws := s.draws
    program := s.program
    turns := s.turns
    trace := s.trace }

end Sys2Proof.Machine
end

