-- ==== Sys2Proof/Machine/Flags.lean ====
section
/-! DEFINITION. The flags of STATUS (spec/10_state.md R24 to R31): the register as the host reads it, the
write-one-to-clear write, BERR, and the exception flags of a decoded frame (spec/41_frame_codec.md R126). The flags that
acceptance and completion write are in `Ops.lean`. -/

namespace Sys2Proof.Machine

/-- STATUS as a 32-bit word, with `exc` and `excv` in bits 4 and 5 (the layout of 10_state.md section 3; bits 7:6 and
31:12 read 0, R31). -/
def statusWordWith (exc excv : Bool) (s : State) : Word :=
  0#20 ++ s.status.errcode ++ 0#2 ++ BitVec.ofBool excv ++ BitVec.ofBool exc ++ BitVec.ofBool s.status.berr
    ++ BitVec.ofBool s.status.err ++ BitVec.ofBool s.status.done ++ BitVec.ofBool s.busy

/-- STATUS as it reads while no command is in flight. -/
def statusWord (s : State) : Word := statusWordWith s.status.exc s.status.excv s

/-- A host write of `v` to STATUS (R31): W1C of DONE (R25), of ERR with ERRCODE (R26), of BERR (R27). Allowed while
BUSY = 1, with effect at once. -/
def writeStatus (v : Word) (s : State) : State :=
  { s with
    status :=
      { s.status with
        done := s.status.done && !v.getLsbD 1
        err := s.status.err && !v.getLsbD 2
        errcode := if v.getLsbD 2 then 0 else s.status.errcode
        berr := s.status.berr && !v.getLsbD 3 } }

/-- STATUS.BERR <- 1 (R27, R195). -/
def setBerr (s : State) : State := { s with status := { s.status with berr := true } }

/-- EXC of a frame with function byte `f` (R28, R126): its bit 7. -/
def excOf (f : Byte) : Bool := f.getLsbD 7

/-- EXCV of a frame with function byte `f` and a payload of `p` bytes (R29, R126). -/
def excvOf (f : Byte) (p : Nat) : Bool := excOf f && decide (1 ≤ p)

/-- ERRCODE holds a value that can be produced: 0 to 4 (R30, U8). -/
def errcodeLegal (s : State) : Bool := decide (s.status.errcode.toNat ≤ 4)

end Sys2Proof.Machine
end

