-- ==== Sys2Proof/Machine/Operands.lean ====
section
/-! DEFINITION. The operand forms of the commands: a byte of BUF, a range of BUF (spec/10_state.md R32), the lengths in
PLEN and FLEN (R35, R36), the received CRC field of a frame (spec/41_frame_codec.md R125). IMM8 is read by the decoder
(R72). -/

namespace Sys2Proof.Machine

/-- `BUF[i]` as a command or the host reads it (R32). An unwritten byte raises the model fault `UnwrittenRead(i)` and
reads as a free value: "On the device, an unwritten byte reads as an unspecified value" (log 3). Each read of such a byte
is a fresh free value: DESIGN CHOICE that two reads of it by an idle host need not agree, where R57 has a repeated read
return the same value (log 16). -/
def readByte (i : Nat) (s : State) : Byte × State :=
  match s.buf.read i with
  | some b => (b, s)
  | none => drawByte (raiseUnwritten i s)

/-- The `n` bytes `BUF[i], ..., BUF[i+n-1]`, lowest index first, each read once (log 4). -/
def readBytes : Nat → Nat → State → List Byte × State
  | _, 0, s => ([], s)
  | i, n + 1, s =>
    ((readByte i s).1 :: (readBytes (i + 1) n (readByte i s).2).1, (readBytes (i + 1) n (readByte i s).2).2)

/-- FLEN.VALUE as a count (R36). -/
def flenOf (s : State) : Nat := s.flen.toNat

/-- PLEN.VALUE as a count (R35). -/
def plenOf (s : State) : Nat := s.plen.toNat

/-- Byte `i` of bytes already read. It is asked for below their number only. -/
def byteAt (bs : List Byte) (i : Nat) : Byte := bs.getD i 0

/-- The received CRC of a frame of `n` bytes: `{BUF[n-1], BUF[n-2]}`, low byte first on the wire (R125). -/
def receivedCrc (bs : List Byte) (n : Nat) : Half := byteAt bs (n - 1) ++ byteAt bs (n - 2)

/-- crc_lo, `c[7:0]` (R122). -/
def crcLo (c : Half) : Byte := c.extractLsb' 0 8

/-- crc_hi, `c[15:8]` (R122). -/
def crcHi (c : Half) : Byte := c.extractLsb' 8 8

end Sys2Proof.Machine
end

