-- ==== Sys2Proof/Machine/Bus.lean ====
section
/-! DEFINITION. The block's bus port (spec/20_memory.md): the window, the check of width and alignment (R53), what a
host write does (R55, R56, R161, R195) and what a host read returns (R54, R56, R196). -/

namespace Sys2Proof.Machine

/-- The number of bytes of an access (R13). -/
def Width.bytes : Width → Nat
  | .w8 => 1
  | .w16 => 2
  | .w32 => 4

/-! ## The window (R9, R10) -/

/-- The host address of an offset, for a window at `base` (R10). -/
def hostAddress (base : Nat) (off : Offset) : Nat := base + off.toNat

/-- The offset that the block at `base` decodes from a host address; none for an address outside its window, which
does not reach the block (log 14). -/
def offsetAt (base addr : Nat) : Option Offset :=
  if base ≤ addr ∧ addr < base + Config.windowSize then some (BitVec.ofNat 12 (addr - base)) else none

/-- A host read at a host address, as the access that reaches the block. -/
def readAt (base : Nat) (n : Width) (addr : Nat) : Option Access := (offsetAt base addr).map (Access.read n)

/-- A host write at a host address, as the access that reaches the block. -/
def writeAt (base : Nat) (n : Width) (addr : Nat) (v : Word) : Option Access :=
  (offsetAt base addr).map (fun off => Access.write n off v)

/-! ## Regions and targets (R22, R53) -/

/-- The offset lies in BUF: 0x100 to 0x1FF (R22). -/
def inBuf (off : Offset) : Bool := decide (Config.bufBase ≤ off.toNat ∧ off.toNat < Config.bufEnd)

/-- The check of R53: which widths and alignments each region takes. What it refuses gets a bus error (R166). -/
def busAllowed (n : Width) (off : Offset) : Bool :=
  match n with
  | .w8 => inBuf off
  | .w16 => inBuf off && decide (off.toNat % 2 = 0)
  | .w32 => decide (off.toNat % 4 = 0)

/-- What stands at an offset (R22). -/
inductive Target where
  | cmd
  | status
  | crc
  | hdr
  | plen
  | flen
  | dec
  /-- BUF[i] (R32). -/
  | buf (i : Nat)
  /-- RAZ/WI (R38). -/
  | reserved
  deriving DecidableEq, Repr

/-- The map of R22. -/
def targetOf (off : Offset) : Target :=
  if off = Config.offCmd then .cmd
  else if off = Config.offStatus then .status
  else if off = Config.offCrc then .crc
  else if off = Config.offHdr then .hdr
  else if off = Config.offPlen then .plen
  else if off = Config.offFlen then .flen
  else if off = Config.offDec then .dec
  else if inBuf off then .buf (off.toNat - Config.bufBase)
  else .reserved

/-! ## Writes -/

/-- HDR's stored bits of a written word (R34). -/
def hdrOfWord (v : Word) : Hdr := { addr := v.extractLsb' 0 8, func := v.extractLsb' 8 8 }

/-- The 9 stored bits of PLEN and FLEN (R35, R36). -/
def lenOfWord (v : Word) : Len := v.extractLsb' 0 9

/-- A host write of the low `n` bytes of `v` (log 15) while BUSY = 0: acceptance for CMD (R161), W1C for STATUS (R31), a store
for HDR, PLEN, FLEN (R34 to R36) and BUF (R55), nothing for CRC, DEC and the reserved offsets (R33, R37, R38). -/
def writeTarget (n : Width) (v : Word) (s : State) : Target → State
  | .cmd => accept v s
  | .status => writeStatus v s
  | .hdr => { s with hdr := hdrOfWord v }
  | .plen => { s with plen := lenOfWord v }
  | .flen => { s with flen := lenOfWord v }
  | .buf i => { s with buf := s.buf.writeBytes i (bytesOf v n.bytes) }
  | .crc => s
  | .dec => s
  | .reserved => s

/-- A host write that R53 allows. While BUSY = 1 every target but STATUS is discarded and sets BERR (R27, R195). -/
def hostWrite (n : Width) (off : Offset) (v : Word) (s : State) : State :=
  if s.busy && decide (targetOf off ≠ .status) then setBerr s else writeTarget n v s (targetOf off)

/-! ## Reads -/

/-- CRC, HDR, PLEN, FLEN and DEC as 32-bit words, the upper bits 0 (R33 to R37). -/
def crcWord (c : Half) : Word := c.setWidth 32
def hdrWord (h : Hdr) : Word := 0#16 ++ h.func ++ h.addr
def lenWord (l : Len) : Word := l.setWidth 32
def decWord (d : Dec) : Word := 0#8 ++ d.exccode ++ d.func ++ d.addr

/-- The bytes of BUF that a host read covers (R54). An unwritten byte raises the model fault whether a command is in
flight or not (R167); while BUSY = 1 every byte is a free value (R196). -/
def readBuf (i n : Nat) (s : State) : List Byte × State :=
  if s.busy then drawBytes n (readBytes i n s).2 else readBytes i n s

/-- A host read of `n` bytes at a target. While BUSY = 1, CRC, PLEN, FLEN, DEC, BUF and the bits EXC and EXCV are free
values, a fresh draw for each; the bits that a rule says read 0 still read 0 (R196, U7; log 7). -/
def readTarget (n : Width) (s : State) : Target → Word × State
  | .cmd => (0, s)
  | .reserved => (0, s)
  | .hdr => (hdrWord s.hdr, s)
  | .buf i => (wordOf (readBuf i n.bytes s).1, (readBuf i n.bytes s).2)
  | .status =>
    if s.busy then (statusWordWith ((draw s).1.getLsbD 0) ((draw s).1.getLsbD 1) s, (draw s).2)
    else (statusWord s, s)
  | .crc => if s.busy then (crcWord ((draw s).1.setWidth 16), (draw s).2) else (crcWord s.crc, s)
  | .plen => if s.busy then (lenWord ((draw s).1.setWidth 9), (draw s).2) else (lenWord s.plen, s)
  | .flen => if s.busy then (lenWord ((draw s).1.setWidth 9), (draw s).2) else (lenWord s.flen, s)
  | .dec => if s.busy then (((draw s).1.setWidth 24).setWidth 32, (draw s).2) else (decWord s.dec, s)

/-! ## One host access -/

/-- What the bus answers to an access, and the state after it. The width and alignment check comes first, and a bus
error changes nothing, not even BERR (R53, R168). A discarded write takes the normal response: R166 lists the bus errors
exactly (log 8). -/
def busAccess (a : Access) (s : State) : Response × State :=
  match a with
  | .write n off v => if busAllowed n off then (.ok, hostWrite n off v s) else (.busError off n, s)
  | .read n off =>
    if busAllowed n off then (.data (readTarget n s (targetOf off)).1, (readTarget n s (targetOf off)).2)
    else (.busError off n, s)

/-- One host access, its response entered in the trace. -/
def hostAccess (a : Access) (s : State) : State :=
  { (busAccess a s).2 with trace := (a, (busAccess a s).1) :: (busAccess a s).2.trace }

/-- The access that one turn of WAIT makes (R82). -/
def pollAccess : Access := .read .w32 Config.offStatus

/-- WAIT ends when the value read has DONE, bit 1, set (R82). -/
def waitEnds : Response → Bool
  | .data v => v.getLsbD 1
  | .ok => false
  | .busError _ _ => false
  | .aborted _ => false

/-- The host's turn: its next line. An access is issued and the line is done; WAIT reads STATUS once and is done when
DONE = 1. With no line left the host issues nothing. -/
def hostTurn (s : State) : State :=
  match s.program with
  | [] => s
  | .access a :: rest => hostAccess a { s with program := rest }
  | .wait :: rest =>
    if waitEnds (busAccess pollAccess s).1 then { hostAccess pollAccess s with program := rest }
    else hostAccess pollAccess s

/-- An access that reset cut short: not performed, a read returning any value (R191, U10; log 12). -/
def abortAccess (a : Access) (s : State) : State :=
  match a with
  | .write _ _ _ => { s with trace := (a, .aborted none) :: s.trace }
  | .read _ _ => { (draw s).2 with trace := (a, .aborted (some (draw s).1)) :: s.trace }

/-- Reset while the host's next access is in progress (R191): the block is reset, the access is not performed. A host
that polls goes on polling (log 12). -/
def resetInAccessTurn (s : State) : State :=
  match s.program with
  | [] => resetBlock s
  | .access a :: rest => abortAccess a (resetBlock { s with program := rest })
  | .wait :: _ => abortAccess pollAccess (resetBlock s)

end Sys2Proof.Machine
end

