-- ==== Sys2Proof/Machine/Crc.lean ====
section
/-! DEFINITION. The CRC engine (spec/40_crc.md): the one-byte step R100, the CRC of a byte sequence R101, and the
commands CRC_INIT (R103), CRC_FEED (R104) and CRC_BUF (R105, R106). -/

namespace Sys2Proof.Machine

/-- One of the eight shift steps (R100). -/
def crcShift (c : Half) : Half :=
  if c.getLsbD 0 then (c >>> 1) ^^^ Config.crcPoly else c >>> 1

/-- `n` shift steps. -/
def crcShifts : Nat → Half → Half
  | 0, c => c
  | n + 1, c => crcShifts n (crcShift c)

/-- `crc16_update(c, b)` (R100): `b` into the low byte, then eight shift steps. -/
def crc16Update (c : Half) (b : Byte) : Half := crcShifts 8 (c ^^^ b.setWidth 16)

/-- `crc16(bytes)` (R101): the fold of R100 from the seed. -/
def crc16 (bs : List Byte) : Half := bs.foldl crc16Update Config.crcSeed

/-- CRC_INIT (R103). -/
def execCrcInit (s : State) : Host.Outcome State Fault Refusal :=
  .next (complete .none { s with crc := Config.crcSeed })

/-- CRC_FEED b (R104). -/
def execCrcFeed (b : Byte) (s : State) : Host.Outcome State Fault Refusal :=
  .next (complete .none { s with crc := crc16Update s.crc b })

/-- CRC_BUF (R105): the CRC of BUF[0 .. FLEN), from the seed and not from CRC.VALUE; FLEN above 256 completes with
LEN_RANGE, reads no byte and writes nothing but STATUS (R106). -/
def execCrcBuf (s : State) : Host.Outcome State Fault Refusal :=
  if Config.bufSize < flenOf s then .next (complete .lenRange s)
  else
    let r := readBytes 0 (flenOf s) s
    .next (complete .none { r.2 with crc := crc16 r.1 })

end Sys2Proof.Machine
end

