-- ==== Sys2Proof/Machine/Codec.lean ====
section
/-! DEFINITION. The frame codec (spec/41_frame_codec.md): ENCODE (R122) and DECODE (R123 to R126), in place on BUF. -/

namespace Sys2Proof.Machine

/-- The header of a frame in BUF[0] and BUF[1], from HDR (R122). -/
def putHeader (s : State) : State := { s with buf := (s.buf.write 0 s.hdr.addr).write 1 s.hdr.func }

/-- ENCODE (R122). PLEN above 252 completes with LEN_RANGE, nothing but STATUS changed (R124). BUF[0] and BUF[1] are
written before the CRC reads them, so only an unwritten payload byte can raise `UnwrittenRead`. -/
def execEncode (s : State) : Host.Outcome State Fault Refusal :=
  let p := plenOf s
  if Config.maxPlen < p then .next (complete .lenRange s)
  else
    let r := readBytes 0 (p + 2) (putHeader s)
    let c := crc16 r.1
    .next (complete .none
      { r.2 with
        buf := (r.2.buf.write (2 + p) (crcLo c)).write (3 + p) (crcHi c)
        flen := BitVec.ofNat 9 (p + 4)
        crc := c })

/-- The results of a DECODE that succeeds on a frame of the `n` bytes `bs` (R123, R126): PLEN, DEC, EXC and EXCV. -/
def recordFrame (bs : List Byte) (n : Nat) (s : State) : State :=
  let f := byteAt bs 1
  let p := n - Config.minFlen
  { s with
    plen := BitVec.ofNat 9 p
    dec :=
      { addr := byteAt bs 0
        func := f
        exccode := if excvOf f p then byteAt bs 2 else 0 }
    status := { s.status with exc := excOf f, excv := excvOf f p } }

/-- DECODE (R123). The checks stand in the order of R124: LEN_RANGE, INVALID_DATA, CRC_MISMATCH. CRC.VALUE holds the
recomputed CRC on CRC_MISMATCH too (R133); BUF is never written. -/
def execDecode (s : State) : Host.Outcome State Fault Refusal :=
  let n := flenOf s
  if Config.maxFlen < n then .next (complete .lenRange s)
  else if n < Config.minFlen then .next (complete .invalidData s)
  else
    let r := readBytes 0 n s
    let c := crc16 (r.1.take (n - 2))
    let t := { r.2 with crc := c }
    if c = receivedCrc r.1 n then .next (complete .none (recordFrame r.1 n t))
    else .next (complete .crcMismatch t)

end Sys2Proof.Machine
end

