-- ==== Sys2Proof/Machine/Control.lean ====
section
/-! DEFINITION. The control commands (spec/42_control.md): NOP (R150), and ILLEGAL (R151), the meaning of every word that
spells no command. -/

namespace Sys2Proof.Machine

/-- NOP (R150). -/
def execNop (s : State) : Host.Outcome State Fault Refusal := .next (complete .none s)

/-- ILLEGAL (R151): the word only selects this rule; nothing but STATUS changes. It is no row of the opcode table, so
no constructor of `Instr` stands for it: the decoder answers `Cmd.illegal`. -/
def execIllegal (_w : Word) (s : State) : Host.Outcome State Fault Refusal := .next (complete .illegalCmd s)

end Sys2Proof.Machine
end

