-- ==== Sys2Proof/Machine/Engine.lean ====
section
/-! DEFINITION. The engine and the order of turns (spec/60_exceptions.md R162, spec/20_memory.md R52 and R59), and the
acceptance of an opcode-table word. -/

namespace Sys2Proof.Machine

/-- The completion of the command word `w` (R162): decode it and perform the command it spells, or ILLEGAL. -/
def performWord (w : Word) (s : State) : Host.Outcome State Fault Refusal :=
  match decodeCmd w with
  | .instr i => exec i s
  | .illegal v => execIllegal v s

/-- The engine's turn: the command in flight completes; with none in flight nothing happens (R175). -/
def engineTurn (s : State) : Host.Outcome State Fault Refusal :=
  match s.cur with
  | some w => performWord w s
  | none => .next s

/-- One turn of one agent (R5, R52, R191). Reset takes priority over a completion due: it discards CUR (R168, R191). -/
def takeTurn (t : Turn) (s : State) : Host.Outcome State Fault Refusal :=
  match t with
  | .host => .next (hostTurn s)
  | .engine => engineTurn s
  | .reset => .next (resetBlock s)
  | .resetInAccess => .next (resetInAccessTurn s)

/-- The turn when the schedule says nothing more: a command in flight completes (weak fairness, R11, R200), otherwise
the host goes on (log 6). -/
def fairTurn (s : State) : Host.Outcome State Fault Refusal :=
  if s.busy then engineTurn s else .next (hostTurn s)

/-- The next event of the one total order of R59. -/
def nextEvent (s : State) : Host.Outcome State Fault Refusal :=
  match s.turns with
  | [] => fairTurn s
  | t :: ts => takeTurn t { s with turns := ts }

/-- The word `w` accepted, and the engine's turn next: the very next step performs it (log 10). -/
def placeWord (w : Word) (s : State) : State :=
  { accept w s with turns := .engine :: s.turns }

end Sys2Proof.Machine
end

