-- ==== Sys2Proof/Machine/Step.lean ====
section
/-! DEFINITION. One step of the machine. -/

namespace Sys2Proof.Machine

/-- One step: the next event of the total order of R59. A state whose ERRCODE holds 5 to 15 has no step
(U8; log 11). -/
def step (s : State) : Host.Outcome State Fault Refusal :=
  if errcodeLegal s then nextEvent s else .fault .reservedErrCode

/-- `s` with the instruction of an opcode-table row in flight, to be performed by the very next step (log 10). -/
def State.withFetchWord (s : State) (nbits w : Nat) : State := placeWord (tableWord nbits w) s

end Sys2Proof.Machine
end

