-- ==== Sys2Proof/Machine/Frame.lean ====
section
/-! DEFINITION. The frame as the source sees it: its two contracts `encode` and `decode` on byte sequences
(spec/41_frame_codec.md R120, R121), the outcome mapping R134, and the vocabulary that frames carry (R79, R128 to R130).
The commands themselves stand in `Codec.lean`; they check no field value (R127) and interpret no payload byte (R58), so
nothing here changes what a command does. -/

namespace Sys2Proof.Machine

/-- What `decode` returns: address, function, payload (R121). -/
structure Frame where
  address  : Byte
  function : Byte
  payload  : List Byte
  deriving DecidableEq, Repr

/-- The failures of `decode` (R121). -/
inductive DecodeError where
  | invalidData
  | crcMismatch
  deriving DecidableEq, Repr

/-- The outcome code of each failure (R134). -/
def DecodeError.code : DecodeError → ErrCode
  | .invalidData => .invalidData
  | .crcMismatch => .crcMismatch

/-- The bytes that the CRC covers: address, function, payload (R78, R120). -/
def Frame.head (f : Frame) : List Byte := f.address :: f.function :: f.payload

/-- The source's `encode` (R120): the CRC of all preceding bytes is appended, low byte first. -/
def encodeFrame (f : Frame) : List Byte := f.head ++ [crcLo (crc16 f.head), crcHi (crc16 f.head)]

/-- The source's `decode` (R121): the length first, then the CRC over all bytes except the trailing two. -/
def decodeFrame (bs : List Byte) : Except DecodeError Frame :=
  if bs.length < Config.minFlen then .error .invalidData
  else if crc16 (bs.take (bs.length - 2)) = receivedCrc bs bs.length then
    .ok { address := byteAt bs 0, function := byteAt bs 1, payload := (bs.take (bs.length - 2)).drop 2 }
  else .error .crcMismatch

/-- The frame is an exception response: bit 7 of its function byte alone (R79, R126). -/
def Frame.isException (f : Frame) : Bool := excOf f.function

/-- The exception code a frame carries, its first payload byte; none for an exception response with an empty payload
(R126, 90_conflicts.md C3). -/
def Frame.exceptionCode (f : Frame) : Option Byte := if f.isException then f.payload.head? else none

/-- The function number: bits 6:0 (R79). -/
def functionNumber (f : Byte) : BitVec 7 := f.extractLsb' 0 7

/-- The function byte of an exception response to a request: `function | 0x80` (R79). -/
def exceptionFunction (f : Byte) : Byte := f ||| 0x80#8

/-! ## Vocabulary: no rule of the block depends on it (R127 to R130) -/

/-- How the source lists a function code (R128). -/
inductive Support where
  | supported
  | declaredOnly
  deriving DecidableEq, Repr

/-- The function codes the source names (R128). -/
def functionCodes : List (Byte × String × Support) :=
  [(0x03#8, "Read Holding Registers", .supported), (0x06#8, "Write Single Register", .supported),
    (0x10#8, "Write Multiple Registers", .supported), (0x16#8, "(non-standard) string transfer", .supported),
    (0x01#8, "coils (read)", .declaredOnly), (0x02#8, "discrete inputs (read)", .declaredOnly),
    (0x04#8, "input registers (read)", .declaredOnly), (0x05#8, "single coil write", .declaredOnly),
    (0x0F#8, "multiple coil write", .declaredOnly)]

/-- The exception codes the source names (R129). -/
def exceptionCodes : List (Byte × String) :=
  [(0x01#8, "illegal function"), (0x02#8, "illegal data address"), (0x03#8, "illegal data value")]

/-- A 16-bit value in a payload: big-endian (R58, R130). -/
def payloadHalf (v : Half) : List Byte := [v.extractLsb' 8 8, v.extractLsb' 0 8]

/-- A 0x03 request: start, quantity (R130). -/
def readRequest (address : Byte) (start quantity : Half) : Frame :=
  { address, function := 0x03#8, payload := payloadHalf start ++ payloadHalf quantity }

/-- A 0x03 response: byte count, then the registers' bytes (R130). -/
def readResponse (address : Byte) (values : List Half) : Frame :=
  { address, function := 0x03#8, payload := BitVec.ofNat 8 (2 * values.length) :: values.flatMap payloadHalf }

/-- An exception response: `function | 0x80`, then one exception-code byte (R130). -/
def exceptionResponse (address function code : Byte) : Frame :=
  { address, function := exceptionFunction function, payload := [code] }

end Sys2Proof.Machine
end

