-- ==== Sys2Proof/Machine/Program.lean ====
section
/-! DEFINITION. The assembler of spec/30_encoding.md section 5: the mnemonics (R80), the host-access lines (R81) and the
pseudo-instructions with their expansions (R82). -/

namespace Sys2Proof.Machine

/-- The spelling of a line's mnemonic (R80). -/
def mnemonic : AsmLine → String
  | .nop => "nop"
  | .crcInit => "crc.init"
  | .crcFeed _ => "crc.feed"
  | .crcBuf => "crc.buf"
  | .frameEnc => "frame.enc"
  | .frameDec => "frame.dec"
  | .cmd _ => ".cmd"

/-- The word a line spells; none where it is an assembly error (R80). -/
def assemble (l : AsmLine) : Option Word :=
  if l.wellFormed then
    some
      (match l with
      | .nop => 0x00000000#32
      | .crcInit => 0x00000001#32
      | .crcFeed b => 0x00000002#32 ||| BitVec.ofNat 32 b <<< 8
      | .crcBuf => 0x00000003#32
      | .frameEnc => 0x00000004#32
      | .frameDec => 0x00000005#32
      | .cmd w => BitVec.ofNat 32 w)
  else none

/-- The offset `BUF+i` of R81. -/
def bufOff (i : Nat) : Offset := BitVec.ofNat 12 (Config.bufBase + i)

def w8 (off : Offset) (v : Word) : HostLine := .access (.write .w8 off v)
def w16 (off : Offset) (v : Word) : HostLine := .access (.write .w16 off v)
def w32 (off : Offset) (v : Word) : HostLine := .access (.write .w32 off v)
def r8 (off : Offset) : HostLine := .access (.read .w8 off)
def r16 (off : Offset) : HostLine := .access (.read .w16 off)
def r32 (off : Offset) : HostLine := .access (.read .w32 off)

/-- `CMD <mnemonic> [b]` (R82); none where the line is an assembly error. -/
def cmdLines (l : AsmLine) : Option (List HostLine) := (assemble l).map (fun w => [w32 Config.offCmd w])

/-- `WAIT` (R82): the host-side loop is `HostLine.wait`. -/
def waitLines : List HostLine := [.wait]

/-- `CLR` (R82). -/
def clrLines : List HostLine := [w32 Config.offStatus 0x0000000E#32]

/-- `BYTES i: b0 b1 ... bk` (R82). -/
def bytesLines : Nat → List Byte → List HostLine
  | _, [] => []
  | i, b :: bs => w8 (bufOff i) (b.setWidth 32) :: bytesLines (i + 1) bs

/-- `RUN <mnemonic> [b]` (R82). -/
def runLines (l : AsmLine) : Option (List HostLine) := (cmdLines l).map (fun ls => ls ++ waitLines)

end Sys2Proof.Machine
end

