-- ==== Sys2Proof/Safety.lean ====
section
/-! DEFINITION. What claims speak of: a good state (spec/60_exceptions.md R167), the invariant that every step keeps,
and the software protocol of spec/70_reset_and_hazards.md R197. -/

namespace Sys2Proof.Machine

/-- The state can be a good final state: the model fault has not been raised (R167). -/
def State.good (s : State) : Prop := s.unwrittenRead = none

/-- What holds of every state a run reaches. -/
structure Inv (s : State) : Prop where
  /-- BUF is in its canonical form. -/
  bufWf : s.buf.wf
  /-- ERRCODE holds 0 to 4 (R30). -/
  errcodeLegal : s.status.errcode.toNat ≤ 4
  /-- ERR says that ERRCODE is not 0 (R26). -/
  errIff : s.status.err = true ↔ s.status.errcode ≠ 0
  /-- While a command is in flight DONE and ERR are 0 (R161, R196). -/
  busyClear : s.busy = true → s.status.done = false ∧ s.status.err = false
  /-- EXC is bit 7 of DEC.FUNC (R28, R37). -/
  excIsFunc : s.status.exc = s.dec.func.getLsbD 7
  /-- EXCV only with EXC (R29). -/
  excvExc : s.status.excv = true → s.status.exc = true
  /-- EXCCODE is 0x00 unless EXCV (R37). -/
  exccodeZero : s.status.excv = false → s.dec.exccode = 0
  /-- The fault flag names a byte of BUF (R167). -/
  flagInBuf : ∀ i, s.unwrittenRead = some i → i < Config.bufSize

/-- From index `i` on, BUF holds the written bytes `bs`. -/
def State.holds (s : State) (i : Nat) (bs : List Byte) : Prop :=
  ∀ k, k < bs.length → s.buf.read (i + k) = bs[k]?

/-- The first unwritten byte of the `n` bytes from index `i` is byte `j`. -/
def State.firstUnwritten (s : State) (i n j : Nat) : Prop :=
  i ≤ j ∧ j < i + n ∧ s.buf.read j = none ∧ ∀ k, i ≤ k → k < j → s.buf.read k ≠ none

/-! ## Who moves next -/

/-- The host moves next and its next line is the access `a`; after it the lines `rest` and the turns `ts` remain. -/
def State.hostMoves (s : State) (a : Access) (rest : List HostLine) (ts : List Turn) : Prop :=
  errcodeLegal s = true ∧ s.program = .access a :: rest ∧ s.turns = .host :: ts

/-- The engine moves next, with the word `w` in flight; the turns `ts` remain. -/
def State.engineMoves (s : State) (w : Word) (ts : List Turn) : Prop :=
  errcodeLegal s = true ∧ s.cur = some w ∧ s.turns = .engine :: ts

/-- `t` with the response `r` to the access `a` entered, the lines `rest` and the turns `ts` remaining. -/
def State.answered (t : State) (a : Access) (r : Response) (rest : List HostLine) (ts : List Turn) : State :=
  { t with program := rest, turns := ts, trace := (a, r) :: t.trace }

/-! ## The software protocol (R197) -/

/-- The accesses answered so far, newest first, show BUSY = 0 after the last accepted or discarded CMD write: a read of
STATUS returned DONE = 1 or BUSY = 0 since, or there was no CMD write. -/
def seenIdle : List (Access × Response) → Bool
  | [] => true
  | (.write .w32 off _, .ok) :: tr => if off = Config.offCmd then false else seenIdle tr
  | (.read .w32 off, .data v) :: tr =>
    if off = Config.offStatus ∧ (v.getLsbD 1 = true ∨ v.getLsbD 0 = false) then true else seenIdle tr
  | _ :: tr => seenIdle tr

/-- What the host has seen is so: after a sight of BUSY = 0 no command is in flight. -/
def SeenIdleSound (s : State) : Prop := seenIdle s.trace = true → s.busy = false

/-- R197 asks that the host has seen BUSY = 0 before this access: a write to any offset but STATUS, a read of CRC, PLEN,
FLEN, DEC or BUF. -/
def needsIdle : Access → Bool
  | .write _ off _ => decide (targetOf off ≠ .status)
  | .read _ off =>
    match targetOf off with
    | .crc | .plen | .flen | .dec | .buf _ => true
    | .cmd | .status | .hdr | .reserved => false

end Sys2Proof.Machine
end

