-- ==== Sys2Proof/Certificates/Slice0/Obligations.lean ====
section
/-! DEFINITION. The statements for the provers. Each docstring names the rule of spec/ it formalises, or says that it is
derived from the spec's sections, or that a clause is the model's own choice. Every statement about a free value holds for
every value of it. -/

open Sys2Proof Sys2Proof.Machine

/-! ## Encoding -/

/-- Words written out from the rows of R74 and the examples of R80 and R151. -/
def Obligations.SampleWordsDecode : Prop :=
  decodeCmd 0x00000000#32 = .instr .nop ∧
  decodeCmd 0x00000001#32 = .instr .crcInit ∧
  decodeCmd 0x00000102#32 = .instr (.crcFeed 0x01#8) ∧
  decodeCmd 0x0000FF02#32 = .instr (.crcFeed 0xFF#8) ∧
  decodeCmd 0x00000003#32 = .instr .crcBuf ∧
  decodeCmd 0x00000004#32 = .instr .encode ∧
  decodeCmd 0x00000005#32 = .instr .decode ∧
  decodeCmd 0x00000006#32 = .illegal 0x00000006#32 ∧
  decodeCmd 0x00FF0002#32 = .illegal 0x00FF0002#32 ∧
  decodeCmd 0x80000005#32 = .illegal 0x80000005#32

/-- Derived from R70 to R75: a command and its word determine each other, for every command and every operand byte. -/
def Obligations.DecodeAndEncodeAgree : Prop :=
  ∀ (i : Instr) (w : Word), decodeCmd w = .instr i ↔ w = encode i

/-- R75: each line of `decode_cmd`, and the count of the legal words. -/
def Obligations.DecoderIsTotalWith261LegalWords : Prop :=
  decodeCmd 0x00000000#32 = .instr .nop ∧
  decodeCmd 0x00000001#32 = .instr .crcInit ∧
  (∀ w : Word, w &&& 0xFFFF00FF#32 = 0x00000002#32 → decodeCmd w = .instr (.crcFeed (w.extractLsb' 8 8))) ∧
  decodeCmd 0x00000003#32 = .instr .crcBuf ∧
  decodeCmd 0x00000004#32 = .instr .encode ∧
  decodeCmd 0x00000005#32 = .instr .decode ∧
  (∀ w : Word, w ∉ [0x00000000#32, 0x00000001#32, 0x00000003#32, 0x00000004#32, 0x00000005#32] →
    w &&& 0xFFFF00FF#32 ≠ 0x00000002#32 → decodeCmd w = .illegal w) ∧
  ∃ ws : List Word, ws.Nodup ∧ ws.length = 261 ∧
    (∀ w, w ∈ ws ↔ ∃ i, decodeCmd w = .instr i) ∧ ∀ w, w ∉ ws → decodeCmd w = .illegal w

/-- R74: the table, the command of each row, what selecting a row means, and that no word matches two rows. -/
def Obligations.OpcodeRowsAreDisjoint : Prop :=
  opcodeRows =
    [⟨0x00000000#32, 0xFFFFFFFF#32⟩, ⟨0x00000001#32, 0xFFFFFFFF#32⟩, ⟨0x00000002#32, 0xFFFF00FF#32⟩,
      ⟨0x00000003#32, 0xFFFFFFFF#32⟩, ⟨0x00000004#32, 0xFFFFFFFF#32⟩, ⟨0x00000005#32, 0xFFFFFFFF#32⟩] ∧
  opcodeRows.map (fun r => decodeCmd r.pattern) =
    [.instr .nop, .instr .crcInit, .instr (.crcFeed 0), .instr .crcBuf, .instr .encode, .instr .decode] ∧
  (∀ (r : OpcodeRow) (w : Word), r.selects w = true ↔ w &&& r.mask = r.pattern) ∧
  (∀ (w : Word) (r q : OpcodeRow), r ∈ opcodeRows → q ∈ opcodeRows → r.selects w = true → q.selects w = true → r = q) ∧
  ∀ w : Word, (∃ i, decodeCmd w = .instr i) ↔ ∃ r ∈ opcodeRows, r.selects w = true

/-- R71 and R73, by the fields of R70: a word is illegal exactly when its opcode selects no command, a reserved field is
not zero, or IMM8 is not zero outside CRC_FEED. -/
def Obligations.IllegalWordsAreTheIllFormedOnes : Prop :=
  ∀ w : Word, (decodeCmd w = .illegal w ↔
    ¬((w.extractLsb' 0 4).toNat ≤ 5 ∧ w.extractLsb' 16 16 = 0 ∧ w.extractLsb' 4 4 = 0 ∧
      (w.extractLsb' 0 4 = 2 ∨ w.extractLsb' 8 8 = 0))) ∧
    ((CmdFields.ofWord w).wellFormed = true ↔ ∃ i, decodeCmd w = .instr i)

/-- R80: the spelling of each mnemonic and the word it spells; the range of `crc.feed`'s operand; `.cmd` writes any
word. -/
def Obligations.AssemblerSpellsTheCommands : Prop :=
  (mnemonic .nop = "nop" ∧ assemble .nop = some (encode .nop)) ∧
  (mnemonic .crcInit = "crc.init" ∧ assemble .crcInit = some (encode .crcInit)) ∧
  (∀ b, mnemonic (.crcFeed b) = "crc.feed" ∧
    (b ≤ 255 → assemble (.crcFeed b) = some (0x00000002#32 ||| BitVec.ofNat 32 b <<< 8) ∧
      assemble (.crcFeed b) = some (encode (.crcFeed (BitVec.ofNat 8 b)))) ∧
    (255 < b → assemble (.crcFeed b) = none)) ∧
  (mnemonic .crcBuf = "crc.buf" ∧ assemble .crcBuf = some (encode .crcBuf)) ∧
  (mnemonic .frameEnc = "frame.enc" ∧ assemble .frameEnc = some (encode .encode)) ∧
  (mnemonic .frameDec = "frame.dec" ∧ assemble .frameDec = some (encode .decode)) ∧
  (∀ w : Word, mnemonic (.cmd w.toNat) = ".cmd" ∧ assemble (.cmd w.toNat) = some w) ∧
  ∀ (l : AsmLine) (w v : Word), assemble l = some w → decodeCmd w = .illegal v → ∃ n, l = .cmd n

/-! ## A step runs the decoded command -/

/-- Derived from R162 and R52, with the model's order of turns (log 6): when the engine moves, or when the schedule says
nothing more, the step is `exec` of the command that the word in flight decodes to. -/
def Obligations.StepRunsTheDecodedCommand : Prop :=
  ∀ (s : State) (w : Word) (i : Instr) (ts : List Turn), decodeCmd w = .instr i →
    (s.engineMoves w ts → step s = exec i { s with turns := ts }) ∧
    (errcodeLegal s = true → s.cur = some w → s.turns = [] → step s = exec i s)

/-- R151: an illegal word completes with ILLEGAL_CMD; no register other than STATUS changes, no BUF byte is read or
written. -/
def Obligations.IllegalCommandOnlyReports : Prop :=
  (∀ w ∈ [0x00000006#32, 0x0000000F#32, 0x00000011#32, 0x00010004#32, 0x00000101#32, 0x00FF0002#32],
    decodeCmd w = .illegal w) ∧
  (∀ (s : State) (w v : Word) (ts : List Turn), decodeCmd w = .illegal v → s.engineMoves w ts →
    step s = .next
      { s with
        turns := ts
        cur := none
        status := { s.status with done := true, err := true, errcode := 4 } }) ∧
  ∀ (ts : List Turn) (t : State),
    step { accept 0x0000000F#32 State.reset with turns := .engine :: ts } = .next t → statusWord t = 0x00000406#32

/-- Derived from R162 and R14: every command completes, whatever the state, and reports one outcome code. -/
def Obligations.EveryCommandCompletes : Prop :=
  ∀ (i : Instr) (s : State), ∃ t, exec i s = .next t ∧ t.busy = false ∧ t.status.done = true ∧
    t.status.errcode.toNat ≤ 3 ∧ (t.status.err = true ↔ t.status.errcode ≠ 0)

/-! ## Control and CRC commands -/

/-- R150. -/
def Obligations.NopOnlyCompletes : Prop :=
  decodeCmd 0x00000000#32 = .instr .nop ∧ assemble .nop = some 0x00000000#32 ∧
  (∀ s : State, exec .nop s = .next
    { s with cur := none, status := { s.status with done := true, err := false, errcode := 0 } }) ∧
  ∀ s t : State, s.busy = false → statusWord s = 0x00000306#32 →
    exec .nop (accept 0x00000000#32 s) = .next t → statusWord t = 0x00000002#32

/-- R103. -/
def Obligations.CrcInitSetsTheSeed : Prop :=
  decodeCmd 0x00000001#32 = .instr .crcInit ∧ assemble .crcInit = some 0x00000001#32 ∧
  (∀ w : Word, w.extractLsb' 0 4 = 1 → w ≠ 0x00000001#32 → decodeCmd w = .illegal w) ∧
  ∀ s : State, exec .crcInit s = .next
    { s with
      crc := 0xFFFF#16
      cur := none
      status := { s.status with done := true, err := false, errcode := 0 } }

/-- R104. -/
def Obligations.CrcFeedFoldsOneByte : Prop :=
  (∀ w : Word, w &&& 0xFFFF00FF#32 = 0x00000002#32 → decodeCmd w = .instr (.crcFeed (w.extractLsb' 8 8))) ∧
  (∀ w : Word, w.extractLsb' 0 4 = 2 → w &&& 0xFFFF00FF#32 ≠ 0x00000002#32 → decodeCmd w = .illegal w) ∧
  (∀ (b : Byte) (s : State), exec (.crcFeed b) s = .next
    { s with
      crc := crc16Update s.crc b
      cur := none
      status := { s.status with done := true, err := false, errcode := 0 } }) ∧
  crc16Update 0xFFFF#16 0x00#8 = 0x40BF#16 ∧ crc16Update 0xFFFF#16 0x01#8 = 0x807E#16 ∧
  ∀ b : Byte, assemble (.crcFeed b.toNat) = some (encode (.crcFeed b))

/-- R100: the byte into the low byte of the running value, then eight times a shift, with 0xA001 when the low bit was
set. -/
def Obligations.CrcUpdateIsEightShifts : Prop :=
  ∀ (c : Half) (b : Byte), ∃ f : Nat → Half,
    f 0 = c ^^^ b.setWidth 16 ∧
    (∀ k, k < 8 → f (k + 1) = if (f k).getLsbD 0 then (f k >>> 1) ^^^ 0xA001#16 else f k >>> 1) ∧
    crc16Update c b = f 8

/-- R101. -/
def Obligations.CrcFoldsFromTheSeed : Prop :=
  crc16 [] = 0xFFFF#16 ∧ ∀ (bs : List Byte) (b : Byte), crc16 (bs ++ [b]) = crc16Update (crc16 bs) b

/-- Derived from R100 (R132 rests on it): the step is linear in the running value and the byte together. -/
def Obligations.CrcUpdateIsXorLinear : Prop :=
  ∀ (c d : Half) (a b : Byte), crc16Update (c ^^^ d) (a ^^^ b) = crc16Update c a ^^^ crc16Update d b

/-- Derived from R100: one step loses nothing, neither of the running value nor of the byte. -/
def Obligations.CrcUpdateLosesNothing : Prop :=
  (∀ (c d : Half) (b : Byte), crc16Update c b = crc16Update d b → c = d) ∧
  ∀ (c : Half) (a b : Byte), crc16Update c a = crc16Update c b → a = b

/-- Derived from R100: the table form of the step. The high byte is only shifted; all else is the step of the low byte. -/
def Obligations.CrcUpdateHasTableForm : Prop :=
  ∀ (c : Half) (b : Byte), crc16Update c b = (c >>> 8) ^^^ crc16Update 0 (c.setWidth 8 ^^^ b)

/-- Derived from R105: CRC_BUF over written bytes. -/
def Obligations.CrcBufComputesTheCrc : Prop :=
  ∀ (s : State) (bs : List Byte), s.flen.toNat = bs.length → bs.length ≤ 256 → s.holds 0 bs →
    exec .crcBuf s = .next
      { s with
        crc := crc16 bs
        cur := none
        status := { s.status with done := true, err := false, errcode := 0 } }

/-- R106. -/
def Obligations.CrcBufRefusesLongCounts : Prop :=
  ∀ s : State, 256 < s.flen.toNat → exec .crcBuf s = .next
    { s with cur := none, status := { s.status with done := true, err := true, errcode := 3 } }

/-- Derived from R32 and R167: the byte a command reads before it was written raises the model fault for the first such
byte. That the command goes on with a free value, and that the lowest index is the one reported, are the model's choices
(logs 3 and 4). -/
def Obligations.CommandsFlagTheFirstUnwrittenByte : Prop :=
  (∀ (s : State) (j : Nat), s.unwrittenRead = none → s.flen.toNat ≤ 256 → s.firstUnwritten 0 s.flen.toNat j →
    ∃ t, exec .crcBuf s = .next t ∧ t.unwrittenRead = some j ∧ t.status.errcode = 0 ∧ t.buf = s.buf) ∧
  (∀ (s : State) (j : Nat), s.unwrittenRead = none → 4 ≤ s.flen.toNat → s.flen.toNat ≤ 256 →
    s.firstUnwritten 0 s.flen.toNat j →
    ∃ t, exec .decode s = .next t ∧ t.unwrittenRead = some j ∧ t.buf = s.buf) ∧
  ∀ (s : State) (j : Nat), s.unwrittenRead = none → s.plen.toNat ≤ 252 → s.firstUnwritten 2 s.plen.toNat j →
    ∃ t, exec .encode s = .next t ∧ t.unwrittenRead = some j ∧ t.status.errcode = 0 ∧
      t.flen.toNat = s.plen.toNat + 4 ∧ t.buf.read 0 = some s.hdr.addr ∧ t.buf.read 1 = some s.hdr.func

/-- Derived from R107, which the spec derives from R101 and R103 to R105: a run of the machine that writes the commands
CRC_INIT, CRC_FEED b0, ..., CRC_FEED b(n-1) one after another, and one CRC_BUF, leave the same CRC.VALUE. That the run
takes the fair order of turns is the model's choice (log 6). -/
def Obligations.StreamingEqualsBlock : Prop :=
  ∀ bs : List Byte, bs.length ≤ 256 →
    (∀ s : State, errcodeLegal s = true → s.busy = false → s.turns = [] →
      s.program = w32 Config.offCmd (encode .crcInit)
        :: bs.map (fun b => w32 Config.offCmd (encode (.crcFeed b))) →
      ∃ t, core.run (2 * (bs.length + 1)) s = .next t ∧ t.crc = crc16 bs ∧ t.busy = false ∧
        t.status.done = true ∧ t.status.err = false ∧ t.program = [] ∧ t.buf = s.buf) ∧
    ∀ u : State, u.flen.toNat = bs.length → u.holds 0 bs → ∃ v, exec .crcBuf u = .next v ∧ v.crc = crc16 bs

/-- Derived from R105's corner cases: CRC_BUF over a complete valid frame, its CRC bytes included, gives 0x0000. -/
def Obligations.FrameResidueIsZero : Prop :=
  ∀ (s : State) (bs : List Byte), bs.length ≤ 254 → s.flen.toNat = bs.length + 2 →
    s.holds 0 (bs ++ [crcLo (crc16 bs), crcHi (crc16 bs)]) →
    ∃ t, exec .crcBuf s = .next t ∧ t.crc = 0x0000#16 ∧ t.status.errcode = 0

/-! ## The frame codec -/

/-- Derived from R122: ENCODE over a written payload, all that it writes and all that it leaves. -/
def Obligations.EncodePacksTheFrame : Prop :=
  ∀ (s : State) (p : List Byte), s.plen.toNat = p.length → p.length ≤ 252 → s.holds 2 p →
    exec .encode s = .next
      { s with
        buf :=
          (((s.buf.write 0 s.hdr.addr).write 1 s.hdr.func).write (2 + p.length)
            ((crc16 (s.hdr.addr :: s.hdr.func :: p)).extractLsb' 0 8)).write (3 + p.length)
            ((crc16 (s.hdr.addr :: s.hdr.func :: p)).extractLsb' 8 8)
        flen := BitVec.ofNat 9 (p.length + 4)
        crc := crc16 (s.hdr.addr :: s.hdr.func :: p)
        cur := none
        status := { s.status with done := true, err := false, errcode := 0 } }

/-- Derived from R120 and R122: the bytes that stand in BUF after ENCODE are the `k + 4` bytes of the source's `encode`;
those beyond are as they were. -/
def Obligations.EncodedFrameStandsInBuf : Prop :=
  ∀ (s : State) (p : List Byte), s.plen.toNat = p.length → p.length ≤ 252 → s.holds 2 p →
    ∃ t, exec .encode s = .next t ∧
      t.holds 0 (s.hdr.addr :: s.hdr.func :: p ++
        [(crc16 (s.hdr.addr :: s.hdr.func :: p)).extractLsb' 0 8, (crc16 (s.hdr.addr :: s.hdr.func :: p)).extractLsb' 8 8]) ∧
      t.flen.toNat = p.length + 4 ∧ ∀ j, p.length + 4 ≤ j → t.buf.read j = s.buf.read j

/-- R124: the length checks, their order, and the one outcome each reports. -/
def Obligations.LengthChecksStandInOrder : Prop :=
  (∀ s : State, 252 < s.plen.toNat → exec .encode s = .next
    { s with cur := none, status := { s.status with done := true, err := true, errcode := 3 } }) ∧
  (∀ s : State, s.plen.toNat ≤ 252 → ∃ t, exec .encode s = .next t ∧ t.status.errcode = 0) ∧
  (∀ s : State, 256 < s.flen.toNat → exec .decode s = .next
    { s with cur := none, status := { s.status with done := true, err := true, errcode := 3 } }) ∧
  (∀ s : State, s.flen.toNat < 4 → exec .decode s = .next
    { s with cur := none, status := { s.status with done := true, err := true, errcode := 1 } }) ∧
  ∀ s : State, 4 ≤ s.flen.toNat → s.flen.toNat ≤ 256 →
    ∃ t, exec .decode s = .next t ∧ (t.status.errcode = 0 ∨ t.status.errcode = 2)

/-- R126, with the other results of a DECODE that succeeds (R123): all that it writes and all that it leaves. -/
def Obligations.DecodeReturnsTheFields : Prop :=
  ∀ (s : State) (a f lo hi : Byte) (p : List Byte), s.flen.toNat = p.length + 4 → p.length ≤ 252 →
    s.holds 0 (a :: f :: p ++ [lo, hi]) → crc16 (a :: f :: p) = hi ++ lo →
    exec .decode s = .next
      { s with
        crc := crc16 (a :: f :: p)
        plen := BitVec.ofNat 9 p.length
        dec := { addr := a, func := f, exccode := if f.getLsbD 7 then p.headD 0 else 0 }
        cur := none
        status :=
          { done := true, err := false, berr := s.status.berr, errcode := 0
            exc := f.getLsbD 7
            excv := f.getLsbD 7 && !p.isEmpty } }

/-- R125: DECODE succeeds exactly when the received CRC, low byte first, equals the recomputed one in all 16 bits; on a
mismatch it writes CRC.VALUE and STATUS and nothing else. -/
def Obligations.DecodeComparesTheReceivedCrc : Prop :=
  ∀ (s : State) (a f lo hi : Byte) (p : List Byte), s.flen.toNat = p.length + 4 → p.length ≤ 252 →
    s.holds 0 (a :: f :: p ++ [lo, hi]) →
    (crc16 (a :: f :: p) = (hi.setWidth 16 <<< 8) ||| lo.setWidth 16 →
      ∃ t, exec .decode s = .next t ∧ t.status.errcode = 0) ∧
    (crc16 (a :: f :: p) ≠ (hi.setWidth 16 <<< 8) ||| lo.setWidth 16 →
      exec .decode s = .next
        { s with
          crc := crc16 (a :: f :: p)
          cur := none
          status := { s.status with done := true, err := true, errcode := 2 } })

/-- Derived from R121, R123, R126 and R134: DECODE on written bytes of any number up to 256 reports what the source's
`decode` of that byte sequence returns, a frame or a failure; a failure leaves the earlier results as they stood. -/
def Obligations.DecodeRefinesTheSourceDecode : Prop :=
  ∀ (s : State) (bs : List Byte), s.flen.toNat = bs.length → bs.length ≤ 256 → s.holds 0 bs →
    ∃ t, exec .decode s = .next t ∧
      (∀ e, decodeFrame bs = .error e → t.status.errcode = e.code.bits ∧ t.dec = s.dec ∧ t.plen = s.plen ∧
        t.status.exc = s.status.exc ∧ t.status.excv = s.status.excv) ∧
      ∀ fr, decodeFrame bs = .ok fr → t.status.errcode = 0 ∧ t.dec.addr = fr.address ∧ t.dec.func = fr.function ∧
        t.plen.toNat = fr.payload.length ∧ t.holds 2 fr.payload ∧ t.status.exc = fr.isException ∧
        t.status.excv = fr.exceptionCode.isSome ∧ t.dec.exccode = fr.exceptionCode.getD 0

/-- Derived from R131, which the spec derives from R122, R123 and R125: ENCODE followed by DECODE returns what was encoded. `u` is the state before the DECODE: any state with the FLEN
and the frame bytes that ENCODE left (no host write to them in between). A payload longer than 252 bytes is refused. -/
def Obligations.DecodeAfterEncodeReturnsTheFrame : Prop :=
  (∀ (s t u : State) (p : List Byte), s.plen.toNat = p.length → p.length ≤ 252 → s.holds 2 p →
    exec .encode s = .next t → u.flen = t.flen → (∀ j, j < p.length + 4 → u.buf.read j = t.buf.read j) →
    ∃ v, exec .decode u = .next v ∧ v.status.errcode = 0 ∧ v.dec.addr = s.hdr.addr ∧ v.dec.func = s.hdr.func ∧
      v.plen = s.plen ∧ v.holds 2 p) ∧
  ∀ s : State, 252 < s.plen.toNat → ∃ t, exec .encode s = .next t ∧ t.status.errcode = 3

/-- Derived from R132, which the spec derives from R101, R123 and R125 by exhaustive enumeration: a valid frame of any
length with exactly one bit inverted, in any place, is reported as CRC_MISMATCH. -/
def Obligations.DecodeDetectsEverySingleBitFlip : Prop :=
  ∀ (s : State) (bs : List Byte) (i k : Nat), 4 ≤ bs.length → bs.length ≤ 256 →
    crc16 (bs.take (bs.length - 2)) = bs.getD (bs.length - 1) 0 ++ bs.getD (bs.length - 2) 0 →
    i < bs.length → k < 8 → s.flen.toNat = bs.length →
    s.holds 0 (bs.set i (bs.getD i 0 ^^^ (1#8 <<< k))) →
    ∃ t, exec .decode s = .next t ∧ t.status.done = true ∧ t.status.err = true ∧ t.status.errcode = 2

/-- R133, for every command: a command that fails writes no register other than STATUS, with the one exception of
CRC.VALUE on CRC_MISMATCH, and no BUF byte. (The fault flag and the draws are the model's, logs 3 and 5.) -/
def Obligations.FailedCommandWritesOnlyStatus : Prop :=
  ∀ (i : Instr) (s t : State), exec i s = .next t → t.status.err = true →
    t = { s with
          crc := t.crc
          unwrittenRead := t.unwrittenRead
          draws := t.draws
          cur := none
          status := { s.status with done := true, err := true, errcode := t.status.errcode } } ∧
    (t.status.errcode ≠ 2 → t.crc = s.crc ∧ t.unwrittenRead = s.unwrittenRead ∧ t.draws = s.draws)

/-- Derived from the frames of R103 to R105, R122, R123 and R150: what each command leaves unchanged, in every state,
whether the bytes it reads are written or not. ENCODE stores to the four bytes 0, 1, 2+PLEN and 3+PLEN only. -/
def Obligations.CommandsKeepTheirFrame : Prop :=
  ∀ (i : Instr) (s t : State), exec i s = .next t →
    t.hdr = s.hdr ∧ t.status.berr = s.status.berr ∧ t.program = s.program ∧ t.turns = s.turns ∧ t.trace = s.trace ∧
    (i ≠ .encode → t.buf = s.buf ∧ t.flen = s.flen) ∧
    (i ≠ .decode → t.plen = s.plen ∧ t.dec = s.dec ∧ t.status.exc = s.status.exc ∧ t.status.excv = s.status.excv) ∧
    (i = .nop → t.crc = s.crc) ∧
    (i ≠ .crcBuf → i ≠ .encode → i ≠ .decode → t.draws = s.draws ∧ t.unwrittenRead = s.unwrittenRead) ∧
    (i = .encode → ∀ j, j ≠ 0 → j ≠ 1 → j ≠ 2 + plenOf s → j ≠ 3 + plenOf s → t.buf.read j = s.buf.read j)

/-! ## Acceptance, writes and reads of the host -/

/-- Derived from R161: a write to CMD is accepted while BUSY = 0, whatever the word, and is discarded and sets BERR while
BUSY = 1. That the discarded write takes the normal response is the model's inference (log 8). -/
def Obligations.CmdWriteIsAcceptedWhenIdle : Prop :=
  ∀ (s : State) (w : Word) (rest : List HostLine) (ts : List Turn), s.hostMoves (.write .w32 0x000#12 w) rest ts →
    (s.busy = false → step s = .next (State.answered
      { s with cur := some w, status := { s.status with done := false, err := false, errcode := 0 } }
      (.write .w32 0x000#12 w) .ok rest ts)) ∧
    (s.busy = true → step s = .next (State.answered
      { s with status := { s.status with berr := true } } (.write .w32 0x000#12 w) .ok rest ts))

/-- Derived from R195: an allowed host write to any offset but STATUS while a command is in flight is discarded and sets
BERR. That it takes the normal response is the model's inference (log 8). -/
def Obligations.BusyWriteIsDiscarded : Prop :=
  ∀ (s : State) (n : Width) (off : Offset) (v : Word) (rest : List HostLine) (ts : List Turn),
    s.hostMoves (.write n off v) rest ts → s.busy = true → busAllowed n off = true → off ≠ 0x004#12 →
    step s = .next (State.answered
      { s with status := { s.status with berr := true } } (.write n off v) .ok rest ts)

/-- Derived from R166: exactly these accesses get a bus error, and a bus error has no effect on the block. That the host
then goes on with its next line is the model's choice (log 8), which R166 leaves to the host. -/
def Obligations.BusErrorsAreExactlyThese : Prop :=
  (∀ (n : Width) (off : Offset), busAllowed n off = false ↔
    ((n = .w8 ∨ n = .w16) ∧ (off.toNat ≤ 0x0FF ∨ 0x200 ≤ off.toNat)) ∨
    (n = .w16 ∧ 0x100 ≤ off.toNat ∧ off.toNat ≤ 0x1FF ∧ off.toNat % 2 = 1) ∨
    (n = .w32 ∧ off.toNat % 4 ≠ 0)) ∧
  (∀ (s : State) (n : Width) (off : Offset) (v : Word) (rest : List HostLine) (ts : List Turn),
    s.hostMoves (.write n off v) rest ts → busAllowed n off = false →
    step s = .next (s.answered (.write n off v) (.busError off n) rest ts)) ∧
  ∀ (s : State) (n : Width) (off : Offset) (rest : List HostLine) (ts : List Turn),
    s.hostMoves (.read n off) rest ts → busAllowed n off = false →
    step s = .next (s.answered (.read n off) (.busError off n) rest ts)

/-- R31: a host write to STATUS, while a command is in flight or not, and the reserved bits as they read. -/
def Obligations.StatusWriteClearsByOne : Prop :=
  ∀ (s : State) (v : Word) (rest : List HostLine) (ts : List Turn), s.hostMoves (.write .w32 0x004#12 v) rest ts →
    step s = .next (State.answered
      { s with
        status :=
          { done := if v.getLsbD 1 then false else s.status.done
            err := if v.getLsbD 2 then false else s.status.err
            errcode := if v.getLsbD 2 then 0 else s.status.errcode
            berr := if v.getLsbD 3 then false else s.status.berr
            exc := s.status.exc
            excv := s.status.excv } }
      (.write .w32 0x004#12 v) .ok rest ts) ∧
    ∀ x, (busAccess (.read .w32 0x004#12) s).1 = .data x → x.extractLsb' 6 2 = 0 ∧ x.extractLsb' 12 20 = 0

/-- Derived from R55: a host write to BUF stores its bytes in little-endian lanes while BUSY = 0, and nothing else changes;
while BUSY = 1 it is discarded and sets BERR. That the discarded write takes the normal response is the model's inference
(log 8). -/
def Obligations.BufWriteStoresItsLanes : Prop :=
  ∀ (s : State) (n : Width) (i : Nat) (v : Word) (rest : List HostLine) (ts : List Turn), i < 256 →
    busAllowed n (BitVec.ofNat 12 (0x100 + i)) = true →
    s.hostMoves (.write n (BitVec.ofNat 12 (0x100 + i)) v) rest ts →
    (s.busy = false → ∃ m : Memory,
      step s = .next (State.answered { s with buf := m } (.write n (BitVec.ofNat 12 (0x100 + i)) v) .ok rest ts) ∧
      (∀ k, k < n.bytes → m.read (i + k) = some (v.extractLsb' (8 * k) 8)) ∧
      ∀ j, j < i ∨ i + n.bytes ≤ j → m.read j = s.buf.read j) ∧
    (s.busy = true → step s = .next (State.answered
      { s with status := { s.status with berr := true } } (.write n (BitVec.ofNat 12 (0x100 + i)) v) .ok rest ts))

/-- Derived from R54: a host read of written bytes while no command is in flight returns them in little-endian lanes
and changes nothing. That the lanes above a narrow read are 0 is the model's inference (log 15). -/
def Obligations.BufReadReturnsItsLanes : Prop :=
  ∀ (s : State) (n : Width) (i : Nat) (bs : List Byte) (rest : List HostLine) (ts : List Turn), i < 256 →
    busAllowed n (BitVec.ofNat 12 (0x100 + i)) = true → s.busy = false → bs.length = n.bytes → s.holds i bs →
    s.hostMoves (.read n (BitVec.ofNat 12 (0x100 + i))) rest ts →
    ∃ v : Word,
      step s = .next (s.answered (.read n (BitVec.ofNat 12 (0x100 + i))) (.data v) rest ts) ∧
      ∀ k, k < 4 → v.extractLsb' (8 * k) 8 = bs.getD k 0

/-- Derived from R32 and R167: a host read that covers an unwritten byte raises the model fault; the
block's own state is unchanged. That the read goes on with some value, and that it raises the fault while a command is in
flight too, is the model's inference (log 3); that the lowest index is the one reported is its choice (log 4). -/
def Obligations.HostReadFlagsTheFirstUnwrittenByte : Prop :=
  ∀ (s : State) (n : Width) (i j : Nat) (rest : List HostLine) (ts : List Turn), i < 256 →
    busAllowed n (BitVec.ofNat 12 (0x100 + i)) = true → s.unwrittenRead = none → s.firstUnwritten i n.bytes j →
    s.hostMoves (.read n (BitVec.ofNat 12 (0x100 + i))) rest ts →
    ∃ (v : Word) (k : Nat), step s = .next (State.answered
      { s with unwrittenRead := some j, draws := k } (.read n (BitVec.ofNat 12 (0x100 + i))) (.data v) rest ts)

/-- Derived from R22, R23 and the field layouts of R24 to R38: what a 32-bit read of each register returns while no
command is in flight. -/
def Obligations.RegistersReadTheirFields : Prop :=
  ∀ s : State, s.busy = false →
    busAccess (.read .w32 0x000#12) s = (.data 0, s) ∧
    (∃ v, busAccess (.read .w32 0x004#12) s = (.data v, s) ∧ v.getLsbD 0 = false ∧ v.getLsbD 1 = s.status.done ∧
      v.getLsbD 2 = s.status.err ∧ v.getLsbD 3 = s.status.berr ∧ v.getLsbD 4 = s.status.exc ∧
      v.getLsbD 5 = s.status.excv ∧ v.extractLsb' 6 2 = 0 ∧ v.extractLsb' 8 4 = s.status.errcode ∧
      v.extractLsb' 12 20 = 0) ∧
    (∃ v, busAccess (.read .w32 0x008#12) s = (.data v, s) ∧ v.extractLsb' 0 16 = s.crc ∧ v.extractLsb' 16 16 = 0) ∧
    (∃ v, busAccess (.read .w32 0x00C#12) s = (.data v, s) ∧ v.extractLsb' 0 8 = s.hdr.addr ∧
      v.extractLsb' 8 8 = s.hdr.func ∧ v.extractLsb' 16 16 = 0) ∧
    (∃ v, busAccess (.read .w32 0x010#12) s = (.data v, s) ∧ v.extractLsb' 0 9 = s.plen ∧ v.extractLsb' 9 23 = 0) ∧
    (∃ v, busAccess (.read .w32 0x014#12) s = (.data v, s) ∧ v.extractLsb' 0 9 = s.flen ∧ v.extractLsb' 9 23 = 0) ∧
    (∃ v, busAccess (.read .w32 0x018#12) s = (.data v, s) ∧ v.extractLsb' 0 8 = s.dec.addr ∧
      v.extractLsb' 8 8 = s.dec.func ∧ v.extractLsb' 16 8 = s.dec.exccode ∧ v.extractLsb' 24 8 = 0) ∧
    ∀ off : Offset, off.toNat % 4 = 0 → (0x01C ≤ off.toNat ∧ off.toNat ≤ 0x0FF ∨ 0x200 ≤ off.toNat) →
      busAccess (.read .w32 off) s = (.data 0, s)

/-- Derived from R33 to R38: what a 32-bit host write to each data register does while no command is in flight. -/
def Obligations.RegistersTakeTheirWrites : Prop :=
  ∀ (s : State) (v : Word), s.busy = false →
    busAccess (.write .w32 0x00C#12 v) s = (.ok, { s with hdr := ⟨v.extractLsb' 0 8, v.extractLsb' 8 8⟩ }) ∧
    busAccess (.write .w32 0x010#12 v) s = (.ok, { s with plen := v.extractLsb' 0 9 }) ∧
    busAccess (.write .w32 0x014#12 v) s = (.ok, { s with flen := v.extractLsb' 0 9 }) ∧
    ∀ off : Offset, off.toNat % 4 = 0 →
      (off.toNat = 0x008 ∨ 0x018 ≤ off.toNat ∧ off.toNat ≤ 0x0FF ∨ 0x200 ≤ off.toNat) →
      busAccess (.write .w32 off v) s = (.ok, s)

/-- Derived from R196: what a read while a command is in flight fixes. EXC and EXCV, and the fields of CRC, PLEN, FLEN and
DEC, are free values; that their reserved bits still read 0 is log 7. -/
def Obligations.BusyReadsFixTheseBits : Prop :=
  ∀ s : State, Inv s → s.busy = true →
    busAccess (.read .w32 0x000#12) s = (.data 0, s) ∧
    (∃ v k, busAccess (.read .w32 0x004#12) s = (.data v, { s with draws := k }) ∧ v.getLsbD 0 = true ∧
      v.getLsbD 1 = false ∧ v.getLsbD 2 = false ∧ v.getLsbD 3 = s.status.berr ∧ v.extractLsb' 6 2 = 0 ∧
      v.extractLsb' 8 4 = 0 ∧ v.extractLsb' 12 20 = 0) ∧
    (∃ v, busAccess (.read .w32 0x00C#12) s = (.data v, s) ∧ v.extractLsb' 0 8 = s.hdr.addr ∧
      v.extractLsb' 8 8 = s.hdr.func ∧ v.extractLsb' 16 16 = 0) ∧
    (∀ off ∈ [0x008#12, 0x010#12, 0x014#12, 0x018#12],
      ∃ v k, busAccess (.read .w32 off) s = (.data v, { s with draws := k })) ∧
    ∀ off : Offset, off.toNat % 4 = 0 → (0x01C ≤ off.toNat ∧ off.toNat ≤ 0x0FF ∨ 0x200 ≤ off.toNat) →
      busAccess (.read .w32 off) s = (.data 0, s)

/-- Derived from R57: no host read, of any width at any offset, has a side effect on the block. The fault flag and the
draws are the model's (logs 3 and 5), and that the host goes on with its next line after a refused read is the model's
choice (log 8). -/
def Obligations.HostReadsHaveNoSideEffect : Prop :=
  ∀ (s : State) (n : Width) (off : Offset) (rest : List HostLine) (ts : List Turn),
    s.hostMoves (.read n off) rest ts →
    ∃ (r : Response) (k : Nat) (u : Option Nat),
      step s = .next (State.answered { s with draws := k, unwrittenRead := u } (.read n off) r rest ts)

/-- Derived from R82: one turn of WAIT reads STATUS once, sees DONE, and ends the wait exactly when DONE = 1. -/
def Obligations.WaitPollsUntilDone : Prop :=
  ∀ (s : State) (rest : List HostLine) (ts : List Turn), errcodeLegal s = true → s.program = .wait :: rest →
    s.turns = .host :: ts →
    ∃ (v : Word) (k : Nat), v.getLsbD 1 = s.status.done ∧ v.getLsbD 0 = s.busy ∧
      step s = .next (State.answered { s with draws := k } (.read .w32 0x004#12) (.data v)
        (if s.status.done then rest else s.program) ts)

/-- Derived from R9 and R10: the window at any base address; the platform's base is aligned to 4096. That an address
outside the window decodes to no offset of the block is the model's inference (log 14). -/
def Obligations.WindowDecodesEveryOffset : Prop :=
  (∀ (base : Nat) (off : Offset), offsetAt base (hostAddress base off) = some off) ∧
  (∀ (base addr : Nat) (off : Offset), offsetAt base addr = some off → addr = hostAddress base off) ∧
  (∀ base addr : Nat, offsetAt base addr = none ↔ addr < base ∨ base + 4096 ≤ addr) ∧
  Config.mbBase % 4096 = 0

/-! ## Reset -/

/-- Derived from R190: the state after reset. (The last four fields are the model's own, DESIGN CHOICE of logs 5 and 6, and
are left out here.) -/
def Obligations.ResetStateHoldsTheResetValues : Prop :=
  State.reset.busy = false ∧ State.reset.status = ⟨false, false, false, false, false, 0⟩ ∧
  State.reset.crc = 0xFFFF#16 ∧ State.reset.hdr = ⟨0x00, 0x00⟩ ∧ State.reset.plen = 0 ∧ State.reset.flen = 0 ∧
  State.reset.dec = ⟨0x00, 0x00, 0x00⟩ ∧ (∀ i, State.reset.buf.read i = none) ∧ State.reset.cur = none ∧
  State.reset.unwrittenRead = none

/-- R190: the reset input puts every piece of the block's state at its reset value, and does not clear the model's fault
flag. -/
def Obligations.ResetTurnResetsTheBlock : Prop :=
  ∀ (s : State) (ts : List Turn), errcodeLegal s = true → s.turns = .reset :: ts →
    ∃ t, step s = .next t ∧ t.busy = false ∧ t.status = ⟨false, false, false, false, false, 0⟩ ∧ t.crc = 0xFFFF#16 ∧
      t.hdr = ⟨0x00, 0x00⟩ ∧ t.plen = 0 ∧ t.flen = 0 ∧ t.dec = ⟨0x00, 0x00, 0x00⟩ ∧
      (∀ i, t.buf.read i = none) ∧ t.cur = none ∧ t.unwrittenRead = s.unwrittenRead ∧
      t.program = s.program ∧ t.turns = ts ∧ t.trace = s.trace

/-- Derived from R191 and U10: reset while an access is in progress, an access line, a poll of WAIT, or none at all. The
block is as after any reset, whatever the access was, and the access is entered as aborted, a read with some value. That
an access line is used up, and that WAIT stays the next line, is the model's choice (log 12). -/
def Obligations.ResetCutsTheAccessShort : Prop :=
  ∀ (s : State) (ts : List Turn), errcodeLegal s = true → s.turns = .resetInAccess :: ts →
    (∀ (a : Access) (rest : List HostLine), s.program = .access a :: rest →
      ∃ (o : Option Word) (k : Nat),
        step s = .next
          { State.reset with
            unwrittenRead := s.unwrittenRead
            draws := k
            program := rest
            turns := ts
            trace := (a, .aborted o) :: s.trace } ∧
        (o = none ↔ ∃ n off v, a = .write n off v)) ∧
    (∀ rest : List HostLine, s.program = .wait :: rest →
      ∃ (v : Word) (k : Nat),
        step s = .next
          { State.reset with
            unwrittenRead := s.unwrittenRead
            draws := k
            program := s.program
            turns := ts
            trace := (.read .w32 0x004#12, .aborted (some v)) :: s.trace }) ∧
    (s.program = [] →
      step s = .next
        { State.reset with
          unwrittenRead := s.unwrittenRead
          draws := s.draws
          program := []
          turns := ts
          trace := s.trace })

/-! ## Invariants and whole-machine rules -/

/-- The invariant holds right after reset. -/
def Obligations.ResetSatisfiesTheInvariant : Prop := Inv State.reset

/-- Derived from R24 to R32, R37, R161 and R162: every step keeps the invariant (the canonical form of BUF, a legal ERRCODE,
ERR with ERRCODE, nothing recorded while a command is in flight, EXC with DEC.FUNC, EXCV with EXC, EXCCODE with EXCV,
the fault flag inside BUF). -/
def Obligations.StepKeepsTheInvariant : Prop :=
  ∀ s t : State, Inv s → step s = .next t → Inv t

/-- Derived from R167 and R190: once raised, the model fault is never cleared, by no step, reset included; a good
state is reached from good states only. That it is never renamed either is the model's choice (log 1). -/
def Obligations.FaultFlagIsNeverCleared : Prop :=
  ∀ s t : State, step s = .next t →
    (∀ i, s.unwrittenRead = some i → t.unwrittenRead = some i) ∧ (t.good → s.good)

/-- Derived from U8 and R162: a step stops only in a state whose ERRCODE is one of the reserved values 5 to 15, and never
refuses. -/
def Obligations.StepStopsOnlyOnReservedErrCode : Prop :=
  ∀ s : State,
    (s.status.errcode.toNat ≤ 4 → ∃ t, step s = .next t) ∧
    (4 < s.status.errcode.toNat → step s = .fault .reservedErrCode)

/-- Derived from R197: what the host has seen of BUSY stays true. After it has read DONE = 1 or BUSY = 0, and until its
next CMD write, no command is in flight. -/
def Obligations.SeenIdleStaysSound : Prop :=
  ∀ s t : State, Inv s → SeenIdleSound s → step s = .next t → SeenIdleSound t

/-- Derived from R197: an access that keeps the software protocol never sets BERR, and, where the bytes of BUF it covers
are written, reads no free value. -/
def Obligations.ProtocolKeepsBerrAndValues : Prop :=
  ∀ (s t : State) (a : Access) (rest : List HostLine) (ts : List Turn), SeenIdleSound s → s.hostMoves a rest ts →
    needsIdle a = true → seenIdle s.trace = true → step s = .next t →
    (t.status.berr = true → s.status.berr = true) ∧
    ((∀ n off i k, a = .read n off → targetOf off = .buf i → k < n.bytes → s.buf.read (i + k) ≠ none) →
      t.draws = s.draws)

/-- Derived from R14 and R195: while a command is in flight, whatever the host does leaves the command, its operands and
every result of an earlier command as they stood. -/
def Obligations.HostCannotDisturbTheCommandInFlight : Prop :=
  ∀ (s : State) (ts : List Turn), errcodeLegal s = true → s.busy = true → s.turns = .host :: ts →
    ∃ t, step s = .next t ∧ t.cur = s.cur ∧ t.crc = s.crc ∧ t.hdr = s.hdr ∧ t.plen = s.plen ∧ t.flen = s.flen ∧
      t.dec = s.dec ∧ t.buf = s.buf ∧ t.status.exc = s.status.exc ∧ t.status.excv = s.status.excv ∧ t.turns = ts

/-- Derived from R108, R59 and R195: the results of a command do not depend on LATENCY or on what the host does meanwhile.
`u` is the state an immediate completion would leave, drawing no free value. -/
def Obligations.ResultsDoNotDependOnLatency : Prop :=
  ∀ (k : Nat) (s u : State) (w : Word) (i : Instr) (ts : List Turn), errcodeLegal s = true → s.cur = some w →
    decodeCmd w = .instr i → s.turns = List.replicate k .host ++ .engine :: ts →
    exec i s = .next u → u.draws = s.draws →
    ∃ t, core.run (k + 1) s = .next t ∧ t.cur = none ∧ t.crc = u.crc ∧ t.hdr = u.hdr ∧ t.plen = u.plen ∧
      t.flen = u.flen ∧ t.dec = u.dec ∧ t.buf = u.buf ∧ t.turns = ts ∧ t.status.done = u.status.done ∧
      t.status.err = u.status.err ∧ t.status.errcode = u.status.errcode ∧ t.status.exc = u.status.exc ∧
      t.status.excv = u.status.excv

/-- Derived from R11, R162 and R191: every accepted command completes unless a reset comes first, whatever the schedule
and whatever the host does; the step after the last turn is the fair one (log 6). -/
def Obligations.AcceptedCommandCompletes : Prop :=
  ∀ s : State, errcodeLegal s = true → s.busy = true → (∀ r ∈ s.turns, r = .host ∨ r = .engine) →
    ∃ (k : Nat) (t : State), k ≤ s.turns.length + 1 ∧ core.run k s = .next t ∧ t.busy = false ∧
      t.status.done = true

/-- Derived from R28, R29, R33 and R37: only a DECODE that succeeds, or a reset, changes DEC, EXC or EXCV; only a command
other than NOP, or a reset, changes CRC.VALUE. -/
def Obligations.OnlyCommandsAndResetWriteResults : Prop :=
  ∀ s t : State, step s = .next t → (∀ ts, s.turns ≠ .reset :: ts ∧ s.turns ≠ .resetInAccess :: ts) →
    (¬(t.dec = s.dec ∧ t.status.exc = s.status.exc ∧ t.status.excv = s.status.excv) →
      (∃ w, s.cur = some w ∧ decodeCmd w = .instr .decode) ∧ t.status.done = true ∧ t.status.errcode = 0) ∧
    (t.crc ≠ s.crc → ∃ w i, s.cur = some w ∧ decodeCmd w = .instr i ∧ i ≠ .nop)

/-- Derived from R27 and R195: what sets BERR, in every step of the machine, and what alone clears it. -/
def Obligations.BerrIsSetByBusyWritesOnly : Prop :=
  ∀ s t : State, step s = .next t →
    (s.status.berr = false → (t.status.berr = true ↔
      s.busy = true ∧ ∃ n off v rest ts, s.program = .access (.write n off v) :: rest ∧ s.turns = .host :: ts ∧
        busAllowed n off = true ∧ off ≠ 0x004#12)) ∧
    (s.status.berr = true → t.status.berr = false →
      (∃ ts, s.turns = .reset :: ts ∨ s.turns = .resetInAccess :: ts) ∨
      ∃ v rest, s.program = .access (.write .w32 0x004#12 v) :: rest ∧ v.getLsbD 3 = true)

/-- Derived from R108: what a command does depends on nothing outside the block (the host's program, the schedule, the
accesses so far). -/
def Obligations.CommandsIgnoreThePorts : Prop :=
  ∀ (i : Instr) (s t : State) (p : List HostLine) (ts : List Turn) (tr : List (Access × Response)),
    exec i s = .next t →
    exec i { s with program := p, turns := ts, trace := tr } = .next { t with program := p, turns := ts, trace := tr }
end

