-- ==== Sys2Proof/Laws/Memory.lean ====
section
/-! SUPPORT. The laws of BUF as memory: a read after a write, and that every memory operation keeps the canonical form
(spec/10_state.md R32). -/

namespace Sys2Proof.Machine

theorem read_write_same (m : Memory) (i : Nat) (b : Byte) : (m.write i b).read i = some b := by
  induction m with
  | nil => simp [Memory.write, Memory.read]
  | cons c m ih =>
    simp only [Memory.write]
    split
    · simp [Memory.read]
    · split
      · simp [Memory.read]
      · simp [Memory.read, *]

theorem read_write_other (m : Memory) {i j : Nat} (b : Byte) (h : j ≠ i) : (m.write i b).read j = m.read j := by
  induction m with
  | nil => simp [Memory.write, Memory.read, h]
  | cons c m ih =>
    simp only [Memory.write]
    split
    · simp [Memory.read, h]
    · split
      · next h' => subst h'; simp [Memory.read, h]
      · simp [Memory.read, ih]

/-- A read after a write: the written byte at its own index, the old byte everywhere else. -/
theorem read_write (m : Memory) (i j : Nat) (b : Byte) :
    (m.write i b).read j = if j = i then some b else m.read j := by
  split
  · next h => subst h; exact read_write_same m j b
  · next h => exact read_write_other m b h

theorem mem_write {m : Memory} {i : Nat} {b : Byte} {c : Host.Cell} (h : c ∈ m.write i b) : c = (i, b) ∨ c ∈ m := by
  induction m with
  | nil => simpa [Memory.write] using h
  | cons d m ih =>
    simp only [Memory.write] at h
    split at h
    · simpa using h
    · split at h
      · simp only [List.mem_cons] at h ⊢
        tauto
      · simp only [List.mem_cons] at h ⊢
        rcases h with h | h
        · exact .inr (.inl h)
        · exact (ih h).imp id .inr

/-- A write below BUF_SIZE keeps the canonical form. -/
theorem write_wf {m : Memory} (h : m.wf) {i : Nat} (hi : i < Config.bufSize) (b : Byte) : (m.write i b).wf := by
  refine ⟨?_, fun c hc => ?_⟩
  · have hs := h.1
    clear h
    induction m with
    | nil => simp [Memory.write]
    | cons d m ih =>
      obtain ⟨hd, hm⟩ := List.pairwise_cons.1 hs
      simp only [Memory.write]
      split
      · next hlt =>
        refine List.pairwise_cons.2 ⟨fun c hc => ?_, hs⟩
        rcases List.mem_cons.1 hc with rfl | hc
        · exact hlt
        · exact Nat.lt_trans hlt (hd c hc)
      · split
        · next heq => exact List.pairwise_cons.2 ⟨fun c hc => heq ▸ hd c hc, hm⟩
        · next hlt hne =>
          refine List.pairwise_cons.2 ⟨fun c hc => ?_, ih hm⟩
          rcases mem_write hc with rfl | hc
          · exact Nat.lt_of_le_of_ne (Nat.le_of_not_lt hlt) (Ne.symm hne)
          · exact hd c hc
  · rcases mem_write hc with rfl | hc
    · exact hi
    · exact h.2 c hc

/-- Bytes stored below BUF_SIZE keep the canonical form. -/
theorem writeBytes_wf {m : Memory} (h : m.wf) {i : Nat} {bs : List Byte} (hi : i + bs.length ≤ Config.bufSize) :
    (m.writeBytes i bs).wf := by
  induction bs generalizing m i with
  | nil => simpa [Memory.writeBytes] using h
  | cons b bs ih =>
    simp only [List.length_cons] at hi
    exact ih (write_wf h (by omega) b) (by omega)

/-- A read after bytes were stored: the byte of the list inside its range, the old byte outside. -/
theorem read_writeBytes (m : Memory) (i j : Nat) (bs : List Byte) :
    (m.writeBytes i bs).read j = if i ≤ j ∧ j < i + bs.length then bs[j - i]? else m.read j := by
  induction bs generalizing m i with
  | nil =>
    have : ¬(i ≤ j ∧ j < i) := by omega
    simp [Memory.writeBytes, this]
  | cons b bs ih =>
    simp only [Memory.writeBytes, ih, read_write, List.length_cons]
    by_cases hj : j = i
    · subst hj
      simp
    · by_cases hr : i + 1 ≤ j ∧ j < i + 1 + bs.length
      · have h2 : j - i = (j - (i + 1)) + 1 := by omega
        rw [if_pos hr, if_pos (by omega), h2, List.getElem?_cons_succ]
      · rw [if_neg hr, if_neg hj, if_neg (by omega)]

/-- The memory of the state after reset is in canonical form. -/
theorem reset_buf_wf : State.reset.buf.wf := by decide

@[simp] theorem length_bytesOf (v : Word) (n : Nat) : (bytesOf v n).length = n := by simp [bytesOf]

end Sys2Proof.Machine
end

