-- ==== Sys2Proof/Laws/State.lean ====
section
/-! SUPPORT. One lemma for each field of the state and each named update of it: what the update leaves in the field. -/

namespace Sys2Proof.Machine

/-! ## complete -/

@[simp] theorem complete_status (code : ErrCode) (s : State) : (complete code s).status = { s.status with errcode := code.bits, err := decide (code ≠ ErrCode.none), done := true } := rfl
@[simp] theorem complete_crc (code : ErrCode) (s : State) : (complete code s).crc = s.crc := rfl
@[simp] theorem complete_hdr (code : ErrCode) (s : State) : (complete code s).hdr = s.hdr := rfl
@[simp] theorem complete_plen (code : ErrCode) (s : State) : (complete code s).plen = s.plen := rfl
@[simp] theorem complete_flen (code : ErrCode) (s : State) : (complete code s).flen = s.flen := rfl
@[simp] theorem complete_dec (code : ErrCode) (s : State) : (complete code s).dec = s.dec := rfl
@[simp] theorem complete_buf (code : ErrCode) (s : State) : (complete code s).buf = s.buf := rfl
@[simp] theorem complete_cur (code : ErrCode) (s : State) : (complete code s).cur = none := rfl
@[simp] theorem complete_unwrittenRead (code : ErrCode) (s : State) : (complete code s).unwrittenRead = s.unwrittenRead := rfl
@[simp] theorem complete_draws (code : ErrCode) (s : State) : (complete code s).draws = s.draws := rfl
@[simp] theorem complete_program (code : ErrCode) (s : State) : (complete code s).program = s.program := rfl
@[simp] theorem complete_turns (code : ErrCode) (s : State) : (complete code s).turns = s.turns := rfl
@[simp] theorem complete_trace (code : ErrCode) (s : State) : (complete code s).trace = s.trace := rfl

/-! ## accept -/

@[simp] theorem accept_status (w : Word) (s : State) : (accept w s).status = { s.status with done := false, err := false, errcode := 0 } := rfl
@[simp] theorem accept_crc (w : Word) (s : State) : (accept w s).crc = s.crc := rfl
@[simp] theorem accept_hdr (w : Word) (s : State) : (accept w s).hdr = s.hdr := rfl
@[simp] theorem accept_plen (w : Word) (s : State) : (accept w s).plen = s.plen := rfl
@[simp] theorem accept_flen (w : Word) (s : State) : (accept w s).flen = s.flen := rfl
@[simp] theorem accept_dec (w : Word) (s : State) : (accept w s).dec = s.dec := rfl
@[simp] theorem accept_buf (w : Word) (s : State) : (accept w s).buf = s.buf := rfl
@[simp] theorem accept_cur (w : Word) (s : State) : (accept w s).cur = some w := rfl
@[simp] theorem accept_unwrittenRead (w : Word) (s : State) : (accept w s).unwrittenRead = s.unwrittenRead := rfl
@[simp] theorem accept_draws (w : Word) (s : State) : (accept w s).draws = s.draws := rfl
@[simp] theorem accept_program (w : Word) (s : State) : (accept w s).program = s.program := rfl
@[simp] theorem accept_turns (w : Word) (s : State) : (accept w s).turns = s.turns := rfl
@[simp] theorem accept_trace (w : Word) (s : State) : (accept w s).trace = s.trace := rfl

/-! ## raiseUnwritten -/

@[simp] theorem raiseUnwritten_status (i : Nat) (s : State) : (raiseUnwritten i s).status = s.status := rfl
@[simp] theorem raiseUnwritten_crc (i : Nat) (s : State) : (raiseUnwritten i s).crc = s.crc := rfl
@[simp] theorem raiseUnwritten_hdr (i : Nat) (s : State) : (raiseUnwritten i s).hdr = s.hdr := rfl
@[simp] theorem raiseUnwritten_plen (i : Nat) (s : State) : (raiseUnwritten i s).plen = s.plen := rfl
@[simp] theorem raiseUnwritten_flen (i : Nat) (s : State) : (raiseUnwritten i s).flen = s.flen := rfl
@[simp] theorem raiseUnwritten_dec (i : Nat) (s : State) : (raiseUnwritten i s).dec = s.dec := rfl
@[simp] theorem raiseUnwritten_buf (i : Nat) (s : State) : (raiseUnwritten i s).buf = s.buf := rfl
@[simp] theorem raiseUnwritten_cur (i : Nat) (s : State) : (raiseUnwritten i s).cur = s.cur := rfl
@[simp] theorem raiseUnwritten_unwrittenRead (i : Nat) (s : State) : (raiseUnwritten i s).unwrittenRead = s.unwrittenRead.or (some i) := rfl
@[simp] theorem raiseUnwritten_draws (i : Nat) (s : State) : (raiseUnwritten i s).draws = s.draws := rfl
@[simp] theorem raiseUnwritten_program (i : Nat) (s : State) : (raiseUnwritten i s).program = s.program := rfl
@[simp] theorem raiseUnwritten_turns (i : Nat) (s : State) : (raiseUnwritten i s).turns = s.turns := rfl
@[simp] theorem raiseUnwritten_trace (i : Nat) (s : State) : (raiseUnwritten i s).trace = s.trace := rfl

/-! ## draw -/

@[simp] theorem draw_status (s : State) : (draw s).2.status = s.status := rfl
@[simp] theorem draw_crc (s : State) : (draw s).2.crc = s.crc := rfl
@[simp] theorem draw_hdr (s : State) : (draw s).2.hdr = s.hdr := rfl
@[simp] theorem draw_plen (s : State) : (draw s).2.plen = s.plen := rfl
@[simp] theorem draw_flen (s : State) : (draw s).2.flen = s.flen := rfl
@[simp] theorem draw_dec (s : State) : (draw s).2.dec = s.dec := rfl
@[simp] theorem draw_buf (s : State) : (draw s).2.buf = s.buf := rfl
@[simp] theorem draw_cur (s : State) : (draw s).2.cur = s.cur := rfl
@[simp] theorem draw_unwrittenRead (s : State) : (draw s).2.unwrittenRead = s.unwrittenRead := rfl
@[simp] theorem draw_draws (s : State) : (draw s).2.draws = s.draws + 1 := rfl
@[simp] theorem draw_program (s : State) : (draw s).2.program = s.program := rfl
@[simp] theorem draw_turns (s : State) : (draw s).2.turns = s.turns := rfl
@[simp] theorem draw_trace (s : State) : (draw s).2.trace = s.trace := rfl

/-! ## drawByte -/

@[simp] theorem drawByte_status (s : State) : (drawByte s).2.status = s.status := rfl
@[simp] theorem drawByte_crc (s : State) : (drawByte s).2.crc = s.crc := rfl
@[simp] theorem drawByte_hdr (s : State) : (drawByte s).2.hdr = s.hdr := rfl
@[simp] theorem drawByte_plen (s : State) : (drawByte s).2.plen = s.plen := rfl
@[simp] theorem drawByte_flen (s : State) : (drawByte s).2.flen = s.flen := rfl
@[simp] theorem drawByte_dec (s : State) : (drawByte s).2.dec = s.dec := rfl
@[simp] theorem drawByte_buf (s : State) : (drawByte s).2.buf = s.buf := rfl
@[simp] theorem drawByte_cur (s : State) : (drawByte s).2.cur = s.cur := rfl
@[simp] theorem drawByte_unwrittenRead (s : State) : (drawByte s).2.unwrittenRead = s.unwrittenRead := rfl
@[simp] theorem drawByte_draws (s : State) : (drawByte s).2.draws = s.draws + 1 := rfl
@[simp] theorem drawByte_program (s : State) : (drawByte s).2.program = s.program := rfl
@[simp] theorem drawByte_turns (s : State) : (drawByte s).2.turns = s.turns := rfl
@[simp] theorem drawByte_trace (s : State) : (drawByte s).2.trace = s.trace := rfl

/-! ## setBerr -/

@[simp] theorem setBerr_status (s : State) : (setBerr s).status = { s.status with berr := true } := rfl
@[simp] theorem setBerr_crc (s : State) : (setBerr s).crc = s.crc := rfl
@[simp] theorem setBerr_hdr (s : State) : (setBerr s).hdr = s.hdr := rfl
@[simp] theorem setBerr_plen (s : State) : (setBerr s).plen = s.plen := rfl
@[simp] theorem setBerr_flen (s : State) : (setBerr s).flen = s.flen := rfl
@[simp] theorem setBerr_dec (s : State) : (setBerr s).dec = s.dec := rfl
@[simp] theorem setBerr_buf (s : State) : (setBerr s).buf = s.buf := rfl
@[simp] theorem setBerr_cur (s : State) : (setBerr s).cur = s.cur := rfl
@[simp] theorem setBerr_unwrittenRead (s : State) : (setBerr s).unwrittenRead = s.unwrittenRead := rfl
@[simp] theorem setBerr_draws (s : State) : (setBerr s).draws = s.draws := rfl
@[simp] theorem setBerr_program (s : State) : (setBerr s).program = s.program := rfl
@[simp] theorem setBerr_turns (s : State) : (setBerr s).turns = s.turns := rfl
@[simp] theorem setBerr_trace (s : State) : (setBerr s).trace = s.trace := rfl

/-! ## writeStatus -/

@[simp] theorem writeStatus_crc (v : Word) (s : State) : (writeStatus v s).crc = s.crc := rfl
@[simp] theorem writeStatus_hdr (v : Word) (s : State) : (writeStatus v s).hdr = s.hdr := rfl
@[simp] theorem writeStatus_plen (v : Word) (s : State) : (writeStatus v s).plen = s.plen := rfl
@[simp] theorem writeStatus_flen (v : Word) (s : State) : (writeStatus v s).flen = s.flen := rfl
@[simp] theorem writeStatus_dec (v : Word) (s : State) : (writeStatus v s).dec = s.dec := rfl
@[simp] theorem writeStatus_buf (v : Word) (s : State) : (writeStatus v s).buf = s.buf := rfl
@[simp] theorem writeStatus_cur (v : Word) (s : State) : (writeStatus v s).cur = s.cur := rfl
@[simp] theorem writeStatus_unwrittenRead (v : Word) (s : State) : (writeStatus v s).unwrittenRead = s.unwrittenRead := rfl
@[simp] theorem writeStatus_draws (v : Word) (s : State) : (writeStatus v s).draws = s.draws := rfl
@[simp] theorem writeStatus_program (v : Word) (s : State) : (writeStatus v s).program = s.program := rfl
@[simp] theorem writeStatus_turns (v : Word) (s : State) : (writeStatus v s).turns = s.turns := rfl
@[simp] theorem writeStatus_trace (v : Word) (s : State) : (writeStatus v s).trace = s.trace := rfl

/-! ## putHeader -/

@[simp] theorem putHeader_status (s : State) : (putHeader s).status = s.status := rfl
@[simp] theorem putHeader_crc (s : State) : (putHeader s).crc = s.crc := rfl
@[simp] theorem putHeader_hdr (s : State) : (putHeader s).hdr = s.hdr := rfl
@[simp] theorem putHeader_plen (s : State) : (putHeader s).plen = s.plen := rfl
@[simp] theorem putHeader_flen (s : State) : (putHeader s).flen = s.flen := rfl
@[simp] theorem putHeader_dec (s : State) : (putHeader s).dec = s.dec := rfl
@[simp] theorem putHeader_buf (s : State) : (putHeader s).buf = (s.buf.write 0 s.hdr.addr).write 1 s.hdr.func := rfl
@[simp] theorem putHeader_cur (s : State) : (putHeader s).cur = s.cur := rfl
@[simp] theorem putHeader_unwrittenRead (s : State) : (putHeader s).unwrittenRead = s.unwrittenRead := rfl
@[simp] theorem putHeader_draws (s : State) : (putHeader s).draws = s.draws := rfl
@[simp] theorem putHeader_program (s : State) : (putHeader s).program = s.program := rfl
@[simp] theorem putHeader_turns (s : State) : (putHeader s).turns = s.turns := rfl
@[simp] theorem putHeader_trace (s : State) : (putHeader s).trace = s.trace := rfl

/-! ## recordFrame -/

@[simp] theorem recordFrame_crc (bs : List Byte) (n : Nat) (s : State) : (recordFrame bs n s).crc = s.crc := rfl
@[simp] theorem recordFrame_hdr (bs : List Byte) (n : Nat) (s : State) : (recordFrame bs n s).hdr = s.hdr := rfl
@[simp] theorem recordFrame_plen (bs : List Byte) (n : Nat) (s : State) : (recordFrame bs n s).plen = BitVec.ofNat 9 (n - Config.minFlen) := rfl
@[simp] theorem recordFrame_flen (bs : List Byte) (n : Nat) (s : State) : (recordFrame bs n s).flen = s.flen := rfl
@[simp] theorem recordFrame_buf (bs : List Byte) (n : Nat) (s : State) : (recordFrame bs n s).buf = s.buf := rfl
@[simp] theorem recordFrame_cur (bs : List Byte) (n : Nat) (s : State) : (recordFrame bs n s).cur = s.cur := rfl
@[simp] theorem recordFrame_unwrittenRead (bs : List Byte) (n : Nat) (s : State) : (recordFrame bs n s).unwrittenRead = s.unwrittenRead := rfl
@[simp] theorem recordFrame_draws (bs : List Byte) (n : Nat) (s : State) : (recordFrame bs n s).draws = s.draws := rfl
@[simp] theorem recordFrame_program (bs : List Byte) (n : Nat) (s : State) : (recordFrame bs n s).program = s.program := rfl
@[simp] theorem recordFrame_turns (bs : List Byte) (n : Nat) (s : State) : (recordFrame bs n s).turns = s.turns := rfl
@[simp] theorem recordFrame_trace (bs : List Byte) (n : Nat) (s : State) : (recordFrame bs n s).trace = s.trace := rfl

/-! ## resetBlock -/

@[simp] theorem resetBlock_status (s : State) : (resetBlock s).status = Status.reset := rfl
@[simp] theorem resetBlock_crc (s : State) : (resetBlock s).crc = Config.crcSeed := rfl
@[simp] theorem resetBlock_hdr (s : State) : (resetBlock s).hdr = ⟨0, 0⟩ := rfl
@[simp] theorem resetBlock_plen (s : State) : (resetBlock s).plen = 0 := rfl
@[simp] theorem resetBlock_flen (s : State) : (resetBlock s).flen = 0 := rfl
@[simp] theorem resetBlock_dec (s : State) : (resetBlock s).dec = ⟨0, 0, 0⟩ := rfl
@[simp] theorem resetBlock_buf (s : State) : (resetBlock s).buf = [] := rfl
@[simp] theorem resetBlock_cur (s : State) : (resetBlock s).cur = none := rfl
@[simp] theorem resetBlock_unwrittenRead (s : State) : (resetBlock s).unwrittenRead = s.unwrittenRead := rfl
@[simp] theorem resetBlock_draws (s : State) : (resetBlock s).draws = s.draws := rfl
@[simp] theorem resetBlock_program (s : State) : (resetBlock s).program = s.program := rfl
@[simp] theorem resetBlock_turns (s : State) : (resetBlock s).turns = s.turns := rfl
@[simp] theorem resetBlock_trace (s : State) : (resetBlock s).trace = s.trace := rfl

/-! ## STATUS of the updates that write some of its fields -/

@[simp] theorem writeStatus_exc (v : Word) (s : State) : (writeStatus v s).status.exc = s.status.exc := rfl
@[simp] theorem writeStatus_excv (v : Word) (s : State) : (writeStatus v s).status.excv = s.status.excv := rfl
@[simp] theorem writeStatus_done (v : Word) (s : State) :
    (writeStatus v s).status.done = (s.status.done && !v.getLsbD 1) := rfl
@[simp] theorem writeStatus_err (v : Word) (s : State) :
    (writeStatus v s).status.err = (s.status.err && !v.getLsbD 2) := rfl
@[simp] theorem writeStatus_berr (v : Word) (s : State) :
    (writeStatus v s).status.berr = (s.status.berr && !v.getLsbD 3) := rfl
@[simp] theorem writeStatus_errcode (v : Word) (s : State) :
    (writeStatus v s).status.errcode = if v.getLsbD 2 then 0 else s.status.errcode := rfl
@[simp] theorem recordFrame_status (bs : List Byte) (n : Nat) (s : State) :
    (recordFrame bs n s).status =
      { s.status with
        exc := excOf (byteAt bs 1)
        excv := excvOf (byteAt bs 1) (n - Config.minFlen) } := rfl
@[simp] theorem recordFrame_dec (bs : List Byte) (n : Nat) (s : State) :
    (recordFrame bs n s).dec =
      { addr := byteAt bs 0
        func := byteAt bs 1
        exccode := if excvOf (byteAt bs 1) (n - Config.minFlen) then byteAt bs 2 else 0 } := rfl

/-! ## BUSY -/

theorem busy_iff (s : State) : s.busy = true ↔ ∃ w, s.cur = some w := Option.isSome_iff_exists
@[simp] theorem complete_busy (code : ErrCode) (s : State) : (complete code s).busy = false := rfl
@[simp] theorem accept_busy (w : Word) (s : State) : (accept w s).busy = true := rfl
@[simp] theorem setBerr_busy (s : State) : (setBerr s).busy = s.busy := rfl
@[simp] theorem writeStatus_busy (v : Word) (s : State) : (writeStatus v s).busy = s.busy := rfl
@[simp] theorem draw_busy (s : State) : (draw s).2.busy = s.busy := rfl
@[simp] theorem raiseUnwritten_busy (i : Nat) (s : State) : (raiseUnwritten i s).busy = s.busy := rfl
@[simp] theorem resetBlock_busy (s : State) : (resetBlock s).busy = false := rfl

/-- No outcome code is one of the reserved values 5 to 15 (R30, R160). -/
theorem errCode_bits_legal (code : ErrCode) : code.bits.toNat ≤ 4 := by cases code <;> decide

/-- Only NONE is recorded as 0 (R26, R160). -/
theorem errCode_bits_eq_zero (code : ErrCode) : code.bits = 0 ↔ code = ErrCode.none := by cases code <;> decide

end Sys2Proof.Machine
end

