-- ==== Sys2Proof/Laws/Operands.lean ====
section
/-! SUPPORT. What reading BUF does: its frame, the values of written bytes, and the fault flag for an unwritten one
(spec/10_state.md R32). -/

namespace Sys2Proof.Machine

theorem readByte_written {i : Nat} {s : State} {b : Byte} (h : s.buf.read i = some b) : readByte i s = (b, s) := by
  simp [readByte, h]

theorem readByte_unwritten {i : Nat} {s : State} (h : s.buf.read i = none) :
    readByte i s = drawByte (raiseUnwritten i s) := by
  simp [readByte, h]

/-- All that reading a byte can change: the number of draws and the fault flag. -/
theorem readByte_state (i : Nat) (s : State) :
    (readByte i s).2 = { s with draws := (readByte i s).2.draws, unwrittenRead := (readByte i s).2.unwrittenRead } := by
  unfold readByte
  split <;> rfl

/-- All that reading a range of BUF can change: the number of draws and the fault flag. -/
theorem readBytes_state (i n : Nat) (s : State) :
    (readBytes i n s).2
      = { s with draws := (readBytes i n s).2.draws, unwrittenRead := (readBytes i n s).2.unwrittenRead } := by
  induction n generalizing i s with
  | zero => rfl
  | succ n ih =>
    simp only [readBytes]
    rw [ih]
    rw [readByte_state]

@[simp] theorem readBytes_buf (i n : Nat) (s : State) : (readBytes i n s).2.buf = s.buf := by rw [readBytes_state]
@[simp] theorem readBytes_status (i n : Nat) (s : State) : (readBytes i n s).2.status = s.status := by
  rw [readBytes_state]
@[simp] theorem readBytes_cur (i n : Nat) (s : State) : (readBytes i n s).2.cur = s.cur := by rw [readBytes_state]

@[simp] theorem length_readBytes (i n : Nat) (s : State) : (readBytes i n s).1.length = n := by
  induction n generalizing i s with
  | zero => rfl
  | succ n ih => simp [readBytes, ih]

/-- Reading written bytes gives their values and changes nothing. -/
theorem readBytes_written {i : Nat} {bs : List Byte} {s : State} (h : s.holds i bs) :
    readBytes i bs.length s = (bs, s) := by
  induction bs generalizing i with
  | nil => rfl
  | cons b bs ih =>
    have h0 : s.buf.read i = some b := by simpa using h 0 (by simp)
    have h1 : s.holds (i + 1) bs := fun k hk => by
      have := h (k + 1) (by simpa using hk)
      simpa [Nat.add_assoc, Nat.add_comm 1 k] using this
    simp [readBytes, readByte_written h0, ih h1]

/-- Reading a byte never clears the fault flag and never renames it. -/
theorem readByte_flag_some {i j : Nat} {s : State} (h : s.unwrittenRead = some j) :
    (readByte i s).2.unwrittenRead = some j := by
  unfold readByte
  split <;> simp [h]

theorem readBytes_flag_some {i n j : Nat} {s : State} (h : s.unwrittenRead = some j) :
    (readBytes i n s).2.unwrittenRead = some j := by
  induction n generalizing i s with
  | zero => exact h
  | succ n ih => exact ih (readByte_flag_some h)

/-- A range with an unwritten byte raises the fault for the first one, if no fault was raised before. -/
theorem readBytes_flag_first {i n j : Nat} {s : State} (h : s.firstUnwritten i n j) (hs : s.unwrittenRead = none) :
    (readBytes i n s).2.unwrittenRead = some j := by
  induction n generalizing i s with
  | zero => exact absurd h.2.1 (by have := h.1; omega)
  | succ n ih =>
    obtain ⟨h1, h2, h3, h4⟩ := h
    by_cases hij : i = j
    · subst hij
      show (readBytes (i + 1) n (readByte i s).2).2.unwrittenRead = some i
      refine readBytes_flag_some ?_
      rw [readByte_unwritten h3]
      simp [hs]
    · obtain ⟨b, hb⟩ := Option.ne_none_iff_exists'.1 (h4 i (Nat.le_refl i) (by omega))
      simp only [readBytes, readByte_written hb]
      exact ih ⟨by omega, by omega, h3, fun k hk => h4 k (by omega)⟩ hs

/-- The fault flag after a read names the flag as it was, or a byte of the range. -/
theorem readBytes_flag_range (i n : Nat) (s : State) :
    (readBytes i n s).2.unwrittenRead = s.unwrittenRead
      ∨ ∃ j, i ≤ j ∧ j < i + n ∧ (readBytes i n s).2.unwrittenRead = some j := by
  induction n generalizing i s with
  | zero => exact .inl rfl
  | succ n ih =>
    have hb : (readByte i s).2.unwrittenRead = s.unwrittenRead ∨ (readByte i s).2.unwrittenRead = some i := by
      unfold readByte
      split
      · exact .inl rfl
      · cases hu : s.unwrittenRead <;> simp [hu]
    rcases ih (i + 1) (readByte i s).2 with h | ⟨j, h1, h2, h3⟩
    · rcases hb with hb | hb
      · exact .inl (h.trans hb)
      · exact .inr ⟨i, Nat.le_refl i, by omega, h.trans hb⟩
    · exact .inr ⟨j, by omega, by omega, h3⟩

/-- Free bytes: only the number of draws changes. -/
theorem drawBytes_state (n : Nat) (s : State) : (drawBytes n s).2 = { s with draws := s.draws + n } := by
  induction n generalizing s with
  | zero => rfl
  | succ n ih =>
    simp only [drawBytes]
    rw [ih]
    simp [drawByte, draw, Nat.add_comm, Nat.add_left_comm]

@[simp] theorem length_drawBytes (n : Nat) (s : State) : (drawBytes n s).1.length = n := by
  induction n generalizing s with
  | zero => rfl
  | succ n ih => simp [drawBytes, ih]

end Sys2Proof.Machine
end

