-- ==== Sys2Proof/Laws/Bus.lean ====
section
/-! SUPPORT. What a host access can do: the frames of the bus port (spec/20_memory.md R53 to R57, spec/70 R195 and R196),
and the bits of STATUS as it reads. -/

namespace Sys2Proof.Machine

theorem target_status_iff (off : Offset) : targetOf off = .status ↔ off = Config.offStatus := by
  constructor
  · intro h
    by_contra hne
    unfold targetOf at h
    repeat' split at h
    all_goals first | exact hne ‹_› | exact Target.noConfusion h
  · rintro rfl
    decide

theorem target_buf {i : Nat} (hi : i < 256) : targetOf (BitVec.ofNat 12 (0x100 + i)) = .buf i := by
  have hn : (BitVec.ofNat 12 (0x100 + i)).toNat = 0x100 + i := by simp; omega
  have hne : ∀ o : Offset, o.toNat < 0x100 → BitVec.ofNat 12 (0x100 + i) ≠ o := by
    intro o ho he
    rw [← he, hn] at ho
    omega
  unfold targetOf
  repeat rw [if_neg (hne _ (by decide))]
  rw [if_pos]
  · rw [hn, Config.bufBase, Nat.add_sub_cancel_left]
  · simp only [inBuf, hn, Config.bufBase, Config.bufEnd]
    exact decide_eq_true ⟨by omega, by omega⟩

theorem inBuf_iff (off : Offset) : inBuf off = true ↔ 0x100 ≤ off.toNat ∧ off.toNat < 0x200 :=
  decide_eq_true_iff

/-- A register or reserved offset is outside BUF. -/
theorem target_buf_bound {off : Offset} {i : Nat} (h : targetOf off = .buf i) :
    off.toNat = 0x100 + i ∧ i < 256 := by
  unfold targetOf at h
  repeat' split at h
  all_goals first
    | exact Target.noConfusion h
    | (next hb =>
        simp only [inBuf, Config.bufBase, Config.bufEnd] at hb
        have hb := of_decide_eq_true hb
        injection h with h
        rw [Config.bufBase] at h
        omega)

/-- An allowed access to BUF ends inside BUF (R53: nothing straddles). -/
theorem allowed_buf_bound {n : Width} {off : Offset} {i : Nat} (ha : busAllowed n off = true)
    (h : targetOf off = .buf i) : i + n.bytes ≤ Config.bufSize := by
  obtain ⟨ho, hi⟩ := target_buf_bound h
  cases n
  · simp only [Width.bytes, Config.bufSize]
    omega
  · simp only [busAllowed, Bool.and_eq_true, decide_eq_true_eq] at ha
    simp only [Width.bytes, Config.bufSize]
    omega
  · simp only [busAllowed, decide_eq_true_eq] at ha
    simp only [Width.bytes, Config.bufSize]
    omega

/-- All that a read of BUF can change: the number of draws and the fault flag. -/
theorem readBuf_state (i n : Nat) (s : State) :
    (readBuf i n s).2
      = { s with draws := (readBuf i n s).2.draws, unwrittenRead := (readBytes i n s).2.unwrittenRead } := by
  unfold readBuf
  split
  · rw [drawBytes_state, readBytes_state]
  · rw [readBytes_state]

/-- All that a host read can change: the number of draws and the fault flag (R57). -/
theorem readTarget_state (n : Width) (s : State) (g : Target) :
    (readTarget n s g).2
      = { s with draws := (readTarget n s g).2.draws, unwrittenRead := (readTarget n s g).2.unwrittenRead } := by
  cases g with
  | buf i => simp only [readTarget]; rw [readBuf_state]
  | cmd => rfl
  | reserved => rfl
  | hdr => rfl
  | status => simp only [readTarget]; split <;> rfl
  | crc => simp only [readTarget]; split <;> rfl
  | plen => simp only [readTarget]; split <;> rfl
  | flen => simp only [readTarget]; split <;> rfl
  | dec => simp only [readTarget]; split <;> rfl

/-- A host write while a command is in flight: STATUS takes its W1C write, all else only sets BERR (R195). -/
theorem hostWrite_busy {s : State} (hb : s.busy = true) (n : Width) (off : Offset) (v : Word) :
    hostWrite n off v s = if off = Config.offStatus then writeStatus v s else setBerr s := by
  unfold hostWrite
  by_cases h : off = Config.offStatus
  · have ht := (target_status_iff off).2 h
    rw [if_pos h, ht]
    simp [writeTarget]
  · have ht : targetOf off ≠ .status := fun ht => h ((target_status_iff off).1 ht)
    simp [h, hb, ht]

/-- A host write while no command is in flight reaches its target. -/
theorem hostWrite_idle {s : State} (hb : s.busy = false) (n : Width) (off : Offset) (v : Word) :
    hostWrite n off v s = writeTarget n v s (targetOf off) := by
  simp [hostWrite, hb]

/-! ## The bits of STATUS -/

theorem statusWordWith_bit0 (e x : Bool) (s : State) : (statusWordWith e x s).getLsbD 0 = s.busy := by
  simp only [statusWordWith, BitVec.getLsbD_append]
  simp
theorem statusWordWith_bit1 (e x : Bool) (s : State) : (statusWordWith e x s).getLsbD 1 = s.status.done := by
  simp only [statusWordWith, BitVec.getLsbD_append]
  simp
theorem statusWordWith_bit2 (e x : Bool) (s : State) : (statusWordWith e x s).getLsbD 2 = s.status.err := by
  simp only [statusWordWith, BitVec.getLsbD_append]
  simp
theorem statusWordWith_bit3 (e x : Bool) (s : State) : (statusWordWith e x s).getLsbD 3 = s.status.berr := by
  simp only [statusWordWith, BitVec.getLsbD_append]
  simp
theorem statusWordWith_bit4 (e x : Bool) (s : State) : (statusWordWith e x s).getLsbD 4 = e := by
  simp only [statusWordWith, BitVec.getLsbD_append]
  simp
theorem statusWordWith_bit5 (e x : Bool) (s : State) : (statusWordWith e x s).getLsbD 5 = x := by
  simp only [statusWordWith, BitVec.getLsbD_append]
  simp

theorem statusWordWith_errcode (e x : Bool) (s : State) :
    (statusWordWith e x s).extractLsb' 8 4 = s.status.errcode := by
  apply BitVec.eq_of_getLsbD_eq
  intro i hi
  simp only [BitVec.getLsbD_extractLsb', statusWordWith, BitVec.getLsbD_append]
  obtain rfl | rfl | rfl | rfl : i = 0 ∨ i = 1 ∨ i = 2 ∨ i = 3 := by omega
  all_goals simp

theorem statusWordWith_reserved_low (e x : Bool) (s : State) : (statusWordWith e x s).extractLsb' 6 2 = 0 := by
  apply BitVec.eq_of_getLsbD_eq
  intro i hi
  simp only [BitVec.getLsbD_extractLsb', statusWordWith, BitVec.getLsbD_append]
  obtain rfl | rfl : i = 0 ∨ i = 1 := by omega
  all_goals simp

theorem statusWordWith_reserved_high (e x : Bool) (s : State) : (statusWordWith e x s).extractLsb' 12 20 = 0 := by
  apply BitVec.eq_of_getLsbD_eq
  intro i hi
  simp only [BitVec.getLsbD_extractLsb', statusWordWith, BitVec.getLsbD_append]
  repeat rw [if_neg (by omega)]
  simp

end Sys2Proof.Machine
end

