-- ==== Sys2Proof/Laws/Commands.lean ====
section
/-! SUPPORT. What each command can do, said once for each meaning: its cases, by the conditions its rule checks. -/

namespace Sys2Proof.Machine

theorem execCrcBuf_long {s : State} (h : Config.bufSize < flenOf s) :
    execCrcBuf s = .next (complete .lenRange s) := by
  simp only [execCrcBuf, h, if_true]

theorem execCrcBuf_read {s : State} (h : flenOf s ≤ Config.bufSize) :
    execCrcBuf s =
      .next (complete .none { (readBytes 0 (flenOf s) s).2 with crc := crc16 (readBytes 0 (flenOf s) s).1 }) := by
  simp only [execCrcBuf, Nat.not_lt.2 h, if_false]

theorem execEncode_long {s : State} (h : Config.maxPlen < plenOf s) :
    execEncode s = .next (complete .lenRange s) := by
  simp only [execEncode, h, if_true]

theorem execEncode_pack {s : State} (h : plenOf s ≤ Config.maxPlen) :
    execEncode s =
      .next (complete .none
        { (readBytes 0 (plenOf s + 2) (putHeader s)).2 with
          buf :=
            ((putHeader s).buf.write (2 + plenOf s)
              (crcLo (crc16 (readBytes 0 (plenOf s + 2) (putHeader s)).1))).write (3 + plenOf s)
              (crcHi (crc16 (readBytes 0 (plenOf s + 2) (putHeader s)).1))
          flen := BitVec.ofNat 9 (plenOf s + 4)
          crc := crc16 (readBytes 0 (plenOf s + 2) (putHeader s)).1 }) := by
  simp only [execEncode, Nat.not_lt.2 h, if_false, readBytes_buf]

theorem execDecode_long {s : State} (h : Config.maxFlen < flenOf s) :
    execDecode s = .next (complete .lenRange s) := by
  simp only [execDecode, h, if_true]

theorem execDecode_short {s : State} (h : flenOf s < Config.minFlen) :
    execDecode s = .next (complete .invalidData s) := by
  have h' : ¬Config.maxFlen < flenOf s := by
    simp only [Config.minFlen] at h
    simp only [Config.maxFlen, Config.bufSize]
    omega
  simp only [execDecode, h', h, if_false, if_true]

/-- A DECODE of a length it accepts: the bytes are read once, CRC.VALUE takes the recomputed CRC, and the comparison
decides. -/
theorem execDecode_read {s : State} (h1 : Config.minFlen ≤ flenOf s) (h2 : flenOf s ≤ Config.maxFlen) :
    execDecode s =
      if crc16 ((readBytes 0 (flenOf s) s).1.take (flenOf s - 2)) = receivedCrc (readBytes 0 (flenOf s) s).1 (flenOf s) then
        .next (complete .none (recordFrame (readBytes 0 (flenOf s) s).1 (flenOf s)
          { (readBytes 0 (flenOf s) s).2 with crc := crc16 ((readBytes 0 (flenOf s) s).1.take (flenOf s - 2)) }))
      else
        .next (complete .crcMismatch
          { (readBytes 0 (flenOf s) s).2 with crc := crc16 ((readBytes 0 (flenOf s) s).1.take (flenOf s - 2)) }) := by
  simp only [execDecode, Nat.not_lt.2 h1, Nat.not_lt.2 h2, if_false]

/-- What the completion of a word is: the command it decodes to, or ILLEGAL (R162). -/
theorem performWord_instr {w : Word} {i : Instr} (h : decodeCmd w = .instr i) (s : State) :
    performWord w s = exec i s := by
  simp only [performWord, h]

theorem performWord_illegal {w v : Word} (h : decodeCmd w = .illegal v) (s : State) :
    performWord w s = .next (complete .illegalCmd s) := by
  simp only [performWord, h, execIllegal]

end Sys2Proof.Machine
end

