-- ==== Sys2Proof/Laws/PerInstr.lean ====
section
/-! SUPPORT. Statements about each command as syntax, one lemma for each constructor.
OwnRow: the command's word selects exactly one row of the opcode table of spec/30_encoding.md R74. -/

namespace Sys2Proof.Laws.OwnRow

/-- The command's own row of R74. -/
def rowOf : Instr → OpcodeRow
  | .nop => rowNop
  | .crcInit => rowCrcInit
  | .crcFeed _ => rowCrcFeed
  | .crcBuf => rowCrcBuf
  | .encode => rowEncode
  | .decode => rowDecode

/-- Of the rows of R74 the command's word selects its own, and no other. -/
def Statement (i : Instr) : Prop := opcodeRows.filter (fun r => r.selects (encode i)) = [rowOf i]

theorem nop : Statement .nop := by unfold Statement; decide
theorem crcInit : Statement .crcInit := by unfold Statement; decide
theorem crcFeed : ∀ b : Byte, Statement (.crcFeed b) := by unfold Statement; decide
theorem crcBuf : Statement .crcBuf := by unfold Statement; decide
theorem encode : Statement .encode := by unfold Statement; decide
theorem decode : Statement .decode := by unfold Statement; decide

end Sys2Proof.Laws.OwnRow
end

