-- ==== Sys2Proof/Laws/Step.lean ====
section
/-! SUPPORT. What one step can be, said once: every claim about a step starts from `step_cases`. -/

namespace Sys2Proof.Machine

/-- A step that answers a next state is a completion, a host turn, an engine turn with nothing in flight, a reset, or a
reset inside an access. -/
theorem step_cases {s t : State} (h : step s = .next t) :
    errcodeLegal s = true ∧
      ((∃ w ts, s.cur = some w ∧ (s.turns = .engine :: ts ∨ s.turns = [] ∧ ts = [])
          ∧ performWord w { s with turns := ts } = .next t)
        ∨ (∃ ts, (s.turns = .host :: ts ∨ s.turns = [] ∧ ts = [] ∧ s.busy = false) ∧ t = hostTurn { s with turns := ts })
        ∨ (∃ ts, s.cur = none ∧ s.turns = .engine :: ts ∧ t = { s with turns := ts })
        ∨ (∃ ts, s.turns = .reset :: ts ∧ t = resetBlock { s with turns := ts })
        ∨ (∃ ts, s.turns = .resetInAccess :: ts ∧ t = resetInAccessTurn { s with turns := ts })) := by
  unfold step at h
  split at h
  swap
  · cases h
  next hl =>
  refine ⟨hl, ?_⟩
  unfold nextEvent at h
  split at h
  · next ht =>
    have hs : { s with turns := [] } = s := by
      cases s
      simp only at ht
      subst ht
      rfl
    unfold fairTurn at h
    split at h
    · next hb =>
      obtain ⟨w, hw⟩ := (busy_iff s).1 hb
      refine .inl ⟨w, [], hw, .inr ⟨ht, rfl⟩, ?_⟩
      simp only [engineTurn, hw] at h
      rw [hs]
      exact h
    · next hb =>
      refine .inr (.inl ⟨[], .inr ⟨ht, rfl, by simpa using hb⟩, ?_⟩)
      cases h
      rw [hs]
  · next r ts ht =>
    cases r with
    | host => cases h; exact .inr (.inl ⟨ts, .inl ht, rfl⟩)
    | reset => cases h; exact .inr (.inr (.inr (.inl ⟨ts, ht, rfl⟩)))
    | resetInAccess => cases h; exact .inr (.inr (.inr (.inr ⟨ts, ht, rfl⟩)))
    | engine =>
      simp only [takeTurn, engineTurn] at h
      split at h
      · next w hw => exact .inl ⟨w, ts, hw, .inl ht, h⟩
      · next hw => cases h; exact .inr (.inr (.inl ⟨ts, hw, ht, rfl⟩))

/-- A run of one step more, where that step answers a next state. -/
theorem run_next {s t : State} (h : step s = .next t) (k : Nat) : core.run (k + 1) s = core.run k t := by
  have h' : core.step s = .next t := h
  simp only [Host.Core.run, h']

@[simp] theorem run_zero (s : State) : core.run 0 s = .next s := rfl

end Sys2Proof.Machine
end

