-- ==== Sys2Proof/Tests/Slice0.lean ====
section
/-! SUPPORT. Tests of the model on values written out from the spec (its encodings, and the vectors of
spec/95_test_vectors.md), the smoke test of `WellFormed`, and a witness for the hypotheses of each statement. -/

namespace Sys2Proof.Machine.Tests

open Sys2Proof

/-! ## Small states -/

/-- The bytes `bs` written from BUF[0], FLEN their number. -/
def frameState (bs : List Byte) : State :=
  { State.reset with buf := Memory.writeBytes [] 0 bs, flen := BitVec.ofNat 9 bs.length }

/-- The header and the payload for an ENCODE. -/
def payloadState (a f : Byte) (p : List Byte) : State :=
  { State.reset with hdr := ⟨a, f⟩, plen := BitVec.ofNat 9 p.length, buf := Memory.writeBytes [] 2 p }

/-- The host's next line is `l`, and the host moves next. -/
def withLine (l : HostLine) (s : State) : State := { s with program := [l], turns := [.host] }

/-- The word `w` is in flight and the turns `ts` remain. -/
def inFlight (w : Word) (ts : List Turn) (s : State) : State := { s with cur := some w, turns := ts }

/-- What a question asks of the next state, none where there is no next state. -/
def ofNext {α : Type} (f : State → α) : Host.Outcome State Fault Refusal → Option α
  | .next t => some (f t)
  | .fault _ => none
  | .refused _ => none

theorem next_of_ofNext {α : Type} {f : State → α} {o : Host.Outcome State Fault Refusal} {a : α}
    (h : ofNext f o = some a) : ∃ t, o = .next t ∧ f t = a := by
  cases o with
  | next t => exact ⟨t, rfl, Option.some.inj h⟩
  | fault _ => cases h
  | refused _ => cases h

/-! ## WellFormed: an ill-formed term for each check -/

theorem test_wellFormed_opcode_6_refused : (CmdFields.ofWord 0x00000006#32).wellFormed = false := by decide
theorem test_wellFormed_rsv1_refused : (CmdFields.ofWord 0x00010004#32).wellFormed = false := by decide
theorem test_wellFormed_rsv0_refused : (CmdFields.ofWord 0x00000011#32).wellFormed = false := by decide
theorem test_wellFormed_imm8_refused : (CmdFields.ofWord 0x00000101#32).wellFormed = false := by decide
theorem test_wellFormed_feed_accepted : (CmdFields.ofWord 0x0000FF02#32).wellFormed = true := by decide
theorem test_wellFormed_feed_operand_refused : (AsmLine.crcFeed 256).wellFormed = false := by decide
theorem test_wellFormed_raw_word_refused : (AsmLine.cmd 4294967296).wellFormed = false := by decide

/-! ## Decoding: words written out bit by bit from spec/30_encoding.md R70 and R74 -/

theorem test_decode_nop : decodeCmd 0b0000000000000000_00000000_0000_0000#32 = .instr .nop := by decide
theorem test_decode_crcInit : decodeCmd 0b0000000000000000_00000000_0000_0001#32 = .instr .crcInit := by decide
theorem test_decode_crcFeed : decodeCmd 0b0000000000000000_10100101_0000_0010#32 = .instr (.crcFeed 0xA5#8) := by decide
theorem test_decode_crcBuf : decodeCmd 0b0000000000000000_00000000_0000_0011#32 = .instr .crcBuf := by decide
theorem test_decode_encode : decodeCmd 0b0000000000000000_00000000_0000_0100#32 = .instr .encode := by decide
theorem test_decode_decode : decodeCmd 0b0000000000000000_00000000_0000_0101#32 = .instr .decode := by decide
theorem test_decode_illegal : decodeCmd 0b1000000000000000_00000000_0000_0101#32 = .illegal 0x80000005#32 := by decide
theorem test_encode_crcFeed : encode (.crcFeed 0xA5#8) = 0x0000A502#32 := by decide
theorem test_decodeTableWord : decodeTableWord 32 0x102 = some (.crcFeed 0x01#8) := by decide
theorem test_decodeTableWord_illegal : decodeTableWord 32 0x101 = none := by decide

/-- The instruction of an opcode-table word runs as the very next step after reset. -/
theorem test_withFetchWord_feed :
    ofNext (fun t => (t.crc, t.busy)) (step (State.reset.withFetchWord 32 0x102)) = some (0x807E#16, false) := by decide

/-! ## The assembler (R80 to R82) -/

theorem test_assemble_feed : assemble (.crcFeed 10) = some 0x00000A02#32 := by decide
theorem test_pseudo_run : runLines .crcBuf = some [w32 0x000#12 0x00000003#32, .wait] := by decide
theorem test_pseudo_bytes :
    bytesLines 3 [0x02#8, 0xC0#8] = [w8 0x103#12 0x00000002#32, w8 0x104#12 0x000000C0#32] := by decide

/-! ## Commands (spec/95_test_vectors.md sections 2.1 to 2.5) -/

/-- V-CRC-6. -/
theorem test_crc16_check_value :
    crc16 [0x31#8, 0x32#8, 0x33#8, 0x34#8, 0x35#8, 0x36#8, 0x37#8, 0x38#8, 0x39#8] = 0x4B37#16 := by decide +kernel

/-- V-CTL-10: NOP after STATUS = 0x306. -/
theorem test_nop_clears_error :
    ofNext statusWord
      (exec .nop (accept 0#32 { State.reset with status := ⟨true, true, false, false, false, 3⟩ })) = some 0x00000002#32 := by
  decide

/-- V-INIT-1. -/
theorem test_crcInit :
    ofNext (fun t => (t.crc, statusWord t)) (exec .crcInit { State.reset with crc := 0x2140#16 })
      = some (0xFFFF#16, 0x00000002#32) := by decide

/-- V-FEED-2 and V-FEED-3. -/
theorem test_crcFeed_zero : ofNext (fun t => t.crc) (exec (.crcFeed 0x00#8) State.reset) = some 0x40BF#16 := by decide
theorem test_crcFeed_ones : ofNext (fun t => t.crc) (exec (.crcFeed 0xFF#8) State.reset) = some 0x00FF#16 := by decide

/-- V-BUF-2. -/
theorem test_crcBuf : ofNext (fun t => t.crc) (exec .crcBuf (frameState [0x01#8, 0x03#8])) = some 0x2140#16 := by decide +kernel

/-- V-BUF-6: the model fault is raised for byte 2. -/
theorem test_crcBuf_unwritten :
    ofNext (fun t => t.unwrittenRead) (exec .crcBuf { frameState [0x01#8, 0x03#8] with flen := 3 }) = some (some 2) := by
  decide

/-- V-ENC-1 and V-ENC-5. -/
theorem test_encode :
    ofNext (fun t => (t.buf.map (·.2), t.flen, t.crc, statusWord t))
      (exec .encode (payloadState 0x01#8 0x03#8 [0x00#8, 0x0A#8, 0x00#8, 0x01#8]))
      = some ([0x01#8, 0x03#8, 0x00#8, 0x0A#8, 0x00#8, 0x01#8, 0xA4#8, 0x08#8], 8, 0x08A4#16, 0x00000002#32) := by decide +kernel
theorem test_encode_253 :
    ofNext (fun t => (t.flen, t.crc, statusWord t)) (exec .encode { State.reset with plen := 253 })
      = some (0, 0xFFFF#16, 0x00000306#32) := by decide

/-- V-DEC-9 and V-DEC-6. -/
theorem test_decode_exception_frame :
    ofNext (fun t => (statusWord t, decWord t.dec, t.plen, t.crc))
      (exec .decode (frameState [0x01#8, 0x83#8, 0x02#8, 0xC0#8, 0xF1#8]))
      = some (0x00000032#32, 0x00028301#32, 1, 0xF1C0#16) := by decide +kernel
theorem test_decode_swapped_crc :
    ofNext (fun t => (statusWord t, decWord t.dec, t.plen, t.crc))
      (exec .decode (frameState [0x01#8, 0x03#8, 0x21#8, 0x40#8]))
      = some (0x00000206#32, 0x00000000#32, 0, 0x2140#16) := by decide +kernel

/-! ## The source's contracts and vocabulary (spec/95_test_vectors.md S1 and S2) -/

theorem test_frame_read_request :
    encodeFrame (readRequest 0x01#8 10 1) = [0x01#8, 0x03#8, 0x00#8, 0x0A#8, 0x00#8, 0x01#8, 0xA4#8, 0x08#8] := by
  decide +kernel
theorem test_frame_read_response :
    encodeFrame (readResponse 0x01#8 [1234]) = [0x01#8, 0x03#8, 0x02#8, 0x04#8, 0xD2#8, 0x3A#8, 0xD9#8] := by
  decide +kernel
theorem test_frame_exception :
    encodeFrame (exceptionResponse 0x01#8 0x03#8 0x02#8) = [0x01#8, 0x83#8, 0x02#8, 0xC0#8, 0xF1#8] := by decide +kernel
theorem test_vocabulary :
    functionCodes.map (·.1) = [0x03#8, 0x06#8, 0x10#8, 0x16#8, 0x01#8, 0x02#8, 0x04#8, 0x05#8, 0x0F#8] ∧
    exceptionCodes.map (·.1) = [0x01#8, 0x02#8, 0x03#8] ∧ functionNumber 0x83#8 = 0x03#7 := by decide

/-- V-CTL-6: an illegal word that looks like CRC_INIT does not initialise. -/
theorem test_illegal :
    ofNext (fun t => (t.crc, statusWord t)) (step (inFlight 0x00000101#32 [] { State.reset with crc := 0x2140#16 }))
      = some (0x2140#16, 0x00000406#32) := by decide

/-! ## The bus, hazards and reset (spec/95_test_vectors.md sections 2.6 and 2.7) -/

/-- V-BUS-1, V-BUS-5 and V-BUS-9. -/
theorem test_bus_error_narrow_status : (busAccess (.write .w8 0x004#12 0) State.reset).1 = .busError 0x004#12 .w8 := by
  decide
theorem test_bus_error_misaligned : (busAccess (.read .w32 0x102#12) State.reset).1 = .busError 0x102#12 .w32 := by decide
theorem test_bus_reserved_reads_zero : busAccess (.read .w32 0xFFC#12) State.reset = (.data 0, State.reset) := by decide

/-- V-BUS-11: little-endian lanes. -/
theorem test_buf_write_lanes :
    (busAccess (.write .w32 0x100#12 0x0A000301#32) State.reset).2.buf
      = [(0, 0x01#8), (1, 0x03#8), (2, 0x00#8), (3, 0x0A#8)] := by decide

/-- P1: the read of BUF+4. -/
theorem test_buf_read_lanes :
    (busAccess (.read .w32 0x104#12)
      (frameState [0x01#8, 0x03#8, 0x00#8, 0x0A#8, 0x00#8, 0x01#8, 0xA4#8, 0x08#8])).1 = .data 0x08A40100#32 := by decide

/-- V-RST-2: the model fault is raised for byte 0. -/
theorem test_read_unwritten : (busAccess (.read .w8 0x100#12) State.reset).2.unwrittenRead = some 0 := by decide

/-- V-HAZ-2: a write to FLEN before the completion is discarded and sets BERR. -/
theorem test_write_while_busy :
    ofNext (fun t => (t.flen, t.status.berr))
      (step (withLine (w32 0x014#12 8#32) (inFlight 3#32 [] (frameState [0x01#8, 0x03#8])))) = some (2, true) := by decide

/-- V-HAZ-4: W1C of BERR. -/
theorem test_w1c_berr :
    statusWord (writeStatus 8#32 { State.reset with status := ⟨true, false, true, false, false, 0⟩ }) = 0x00000002#32 := by
  decide

/-- V-RST-1: reset before the completion. -/
theorem test_reset_discards_command :
    ofNext (fun t => (statusWord t, t.crc, t.buf))
      (step (inFlight 1#32 [.reset] (frameState [0x01#8, 0x03#8]))) = some (0#32, 0xFFFF#16, []) := by decide

/-! ## Witnesses: a state and operands that meet all hypotheses of each statement that has any -/

/-- A decoded frame and its error record, for the statements about the flags. -/
def errorState : State := { State.reset with status := ⟨true, true, true, false, false, 3⟩ }

/-- CRC_BUF in flight over two written bytes. -/
def busyState : State := inFlight 3#32 [] (frameState [0x01#8, 0x03#8])

theorem witness_IllegalWordsAreTheIllFormedOnes :
    (∃ w : Word, w.extractLsb' 0 4 = 5 ∧ decodeCmd w = .instr .decode) ∧
    (∃ w : Word, w.extractLsb' 0 4 = 6 ∧ decodeCmd w = .illegal w) ∧
    (∃ w : Word, w.extractLsb' 16 16 = 1 ∧ decodeCmd w = .illegal w) ∧
    (∃ w : Word, w.extractLsb' 4 4 = 1 ∧ decodeCmd w = .illegal w) ∧
    ∃ w : Word, w.extractLsb' 8 8 = 1 ∧ w.extractLsb' 0 4 ≠ 2 ∧ decodeCmd w = .illegal w :=
  ⟨⟨5#32, by decide⟩, ⟨6#32, by decide⟩, ⟨0x00010005#32, by decide⟩, ⟨0x15#32, by decide⟩, ⟨0x105#32, by decide⟩⟩

theorem witness_DecoderIsTotalWith261LegalWords :
    (∃ w : Word, w &&& 0xFFFF00FF#32 = 0x00000002#32) ∧
    ∃ w : Word, w ∉ [0x00000000#32, 0x00000001#32, 0x00000003#32, 0x00000004#32, 0x00000005#32] ∧
      w &&& 0xFFFF00FF#32 ≠ 0x00000002#32 :=
  ⟨⟨0x0000FF02#32, by decide⟩, ⟨6#32, by decide⟩⟩

theorem witness_OpcodeRowsAreDisjoint :
    ∃ (w : Word) (r q : OpcodeRow), r ∈ opcodeRows ∧ q ∈ opcodeRows ∧ r.selects w = true ∧ q.selects w = true :=
  ⟨0x0000FF02#32, rowCrcFeed, rowCrcFeed, by decide⟩

theorem witness_AssemblerSpellsTheCommands :
    assemble (.crcFeed 255) = some 0x0000FF02#32 ∧ assemble (.crcFeed 256) = none ∧
    ∃ (l : AsmLine) (w v : Word), assemble l = some w ∧ decodeCmd w = .illegal v :=
  ⟨by decide, by decide, .cmd 15, 15#32, 15#32, by decide⟩

theorem witness_StepRunsTheDecodedCommand :
    (∃ (s : State) (w : Word) (i : Instr) (ts : List Turn), decodeCmd w = .instr i ∧ s.engineMoves w ts) ∧
    ∃ (s : State) (w : Word) (i : Instr), decodeCmd w = .instr i ∧ errcodeLegal s = true ∧ s.cur = some w ∧ s.turns = [] :=
  ⟨⟨inFlight 3#32 [.engine, .host] State.reset, 3#32, .crcBuf, [.host], by decide, by unfold State.engineMoves; decide⟩,
    ⟨busyState, 3#32, .crcBuf, by decide⟩⟩

theorem witness_IllegalCommandOnlyReports :
    (∃ (s : State) (w v : Word) (ts : List Turn), decodeCmd w = .illegal v ∧ s.engineMoves w ts) ∧
    ∃ (ts : List Turn) (t : State), step { accept 0x0000000F#32 State.reset with turns := .engine :: ts } = .next t :=
  ⟨⟨inFlight 15#32 [.engine] errorState, 15#32, 15#32, [], by decide, by unfold State.engineMoves; decide⟩,
    ⟨[], complete .illegalCmd State.reset, rfl⟩⟩

theorem witness_NopOnlyCompletes :
    ∃ s t : State, s.busy = false ∧ statusWord s = 0x00000306#32 ∧ exec .nop (accept 0x00000000#32 s) = .next t :=
  ⟨{ State.reset with status := ⟨true, true, false, false, false, 3⟩ }, _, by decide, by decide, rfl⟩

theorem witness_CrcInitSetsTheSeed : ∃ w : Word, w.extractLsb' 0 4 = 1 ∧ w ≠ 0x00000001#32 := ⟨0x101#32, by decide⟩

theorem witness_CrcFeedFoldsOneByte :
    (∃ w : Word, w &&& 0xFFFF00FF#32 = 0x00000002#32) ∧
    ∃ w : Word, w.extractLsb' 0 4 = 2 ∧ w &&& 0xFFFF00FF#32 ≠ 0x00000002#32 :=
  ⟨⟨0x0000FF02#32, by decide⟩, ⟨0x00FF0002#32, by decide⟩⟩

theorem witness_CrcUpdateLosesNothing :
    (∃ (c d : Half) (b : Byte), crc16Update c b = crc16Update d b) ∧
    ∃ (c : Half) (a b : Byte), crc16Update c a = crc16Update c b :=
  ⟨⟨0, 0, 0, rfl⟩, ⟨0, 0, 0, rfl⟩⟩

/-- At the lengths 2 and 0. -/
theorem witness_CrcBufComputesTheCrc :
    (∃ (s : State) (bs : List Byte), bs.length = 2 ∧ s.flen.toNat = bs.length ∧ bs.length ≤ 256 ∧ s.holds 0 bs) ∧
    ∃ (s : State) (bs : List Byte), bs.length = 0 ∧ s.flen.toNat = bs.length ∧ bs.length ≤ 256 ∧ s.holds 0 bs :=
  ⟨⟨frameState [0x01#8, 0x03#8], [0x01#8, 0x03#8], by decide, by decide, by decide, by unfold State.holds; decide⟩,
    ⟨frameState [], [], by decide, by decide, by decide, by unfold State.holds; decide⟩⟩

theorem witness_CrcBufRefusesLongCounts : ∃ s : State, 256 < s.flen.toNat :=
  ⟨{ State.reset with flen := 257 }, by decide⟩

theorem witness_CommandsFlagTheFirstUnwrittenByte :
    (∃ (s : State) (j : Nat), s.unwrittenRead = none ∧ s.flen.toNat ≤ 256 ∧ s.firstUnwritten 0 s.flen.toNat j) ∧
    (∃ (s : State) (j : Nat), s.unwrittenRead = none ∧ 4 ≤ s.flen.toNat ∧ s.flen.toNat ≤ 256 ∧
      s.firstUnwritten 0 s.flen.toNat j) ∧
    ∃ (s : State) (j : Nat), s.unwrittenRead = none ∧ s.plen.toNat ≤ 252 ∧ s.firstUnwritten 2 s.plen.toNat j := by
  have h (s : State) (j : Nat) (hj : s.buf.read j = none) (n i : Nat) (h1 : i ≤ j) (h2 : j < i + n)
      (h3 : ∀ k, k < j → i ≤ k → s.buf.read k ≠ none) : s.firstUnwritten i n j :=
    ⟨h1, h2, hj, fun k a b => h3 k b a⟩
  exact ⟨⟨{ frameState [0x01#8, 0x03#8] with flen := 3 }, 2, by decide, by decide,
      h _ 2 (by decide) _ 0 (by decide) (by decide) (by decide)⟩,
    ⟨{ frameState [0x01#8, 0x03#8] with flen := 4 }, 2, by decide, by decide, by decide,
      h _ 2 (by decide) _ 0 (by decide) (by decide) (by decide)⟩,
    ⟨{ State.reset with plen := 3 }, 2, by decide, by decide, h _ 2 (by decide) _ 2 (by decide) (by decide) (by decide)⟩⟩

theorem witness_StreamingEqualsBlock :
    ∃ bs : List Byte, bs.length ≤ 256 ∧
      (∃ s : State, errcodeLegal s = true ∧ s.busy = false ∧ s.turns = [] ∧
        s.program = w32 Config.offCmd (encode .crcInit)
          :: bs.map (fun b => w32 Config.offCmd (encode (.crcFeed b)))) ∧
      ∃ u : State, u.flen.toNat = bs.length ∧ u.holds 0 bs :=
  ⟨[0x01#8, 0x03#8], by decide,
    ⟨{ State.reset with program := [w32 0 1#32, w32 0 0x102#32, w32 0 0x302#32] }, by decide⟩,
    ⟨frameState [0x01#8, 0x03#8], by decide, by unfold State.holds; decide⟩⟩

theorem witness_FrameResidueIsZero :
    ∃ (s : State) (bs : List Byte), bs.length ≤ 254 ∧ s.flen.toNat = bs.length + 2 ∧
      s.holds 0 (bs ++ [crcLo (crc16 bs), crcHi (crc16 bs)]) :=
  ⟨frameState [0x01#8, 0x03#8, 0x40#8, 0x21#8], [0x01#8, 0x03#8], by decide +kernel, by decide +kernel, by unfold State.holds; decide +kernel⟩

/-- For EncodePacksTheFrame, EncodedFrameStandsInBuf and the first clause of DecodeAfterEncodeReturnsTheFrame: payloads of
4 and of 0 bytes. -/
theorem witness_EncodePacksTheFrame :
    (∃ (s : State) (p : List Byte), p.length = 4 ∧ s.plen.toNat = p.length ∧ p.length ≤ 252 ∧ s.holds 2 p) ∧
    ∃ (s : State) (p : List Byte), p.length = 0 ∧ s.plen.toNat = p.length ∧ p.length ≤ 252 ∧ s.holds 2 p :=
  ⟨⟨payloadState 0x01#8 0x03#8 [0x00#8, 0x0A#8, 0x00#8, 0x01#8], [0x00#8, 0x0A#8, 0x00#8, 0x01#8], by decide, by decide,
      by decide, by unfold State.holds; decide⟩,
    ⟨payloadState 0x01#8 0x83#8 [], [], by decide, by decide, by decide, by unfold State.holds; decide⟩⟩

theorem witness_LengthChecksStandInOrder :
    (∃ s : State, 252 < s.plen.toNat) ∧ (∃ s : State, s.plen.toNat = 252) ∧ (∃ s : State, 256 < s.flen.toNat) ∧
    (∃ s : State, s.flen.toNat = 3) ∧ (∃ s : State, s.flen.toNat = 4) ∧ ∃ s : State, s.flen.toNat = 256 :=
  ⟨⟨{ State.reset with plen := 253 }, by decide⟩, ⟨{ State.reset with plen := 252 }, by decide⟩,
    ⟨{ State.reset with flen := 257 }, by decide⟩, ⟨{ State.reset with flen := 3 }, by decide⟩,
    ⟨{ State.reset with flen := 4 }, by decide⟩, ⟨{ State.reset with flen := 256 }, by decide⟩⟩

/-- A frame with an empty payload and an exception frame. -/
theorem witness_DecodeReturnsTheFields :
    (∃ (s : State) (a f lo hi : Byte) (p : List Byte), p = [] ∧ s.flen.toNat = p.length + 4 ∧ p.length ≤ 252 ∧
      s.holds 0 (a :: f :: p ++ [lo, hi]) ∧ crc16 (a :: f :: p) = hi ++ lo) ∧
    ∃ (s : State) (a f lo hi : Byte) (p : List Byte), f.getLsbD 7 = true ∧ p ≠ [] ∧ s.flen.toNat = p.length + 4 ∧
      p.length ≤ 252 ∧ s.holds 0 (a :: f :: p ++ [lo, hi]) ∧ crc16 (a :: f :: p) = hi ++ lo :=
  ⟨⟨frameState [0x01#8, 0x03#8, 0x40#8, 0x21#8], 0x01#8, 0x03#8, 0x40#8, 0x21#8, [], by decide, by decide, by decide,
      by unfold State.holds; decide +kernel, by decide +kernel⟩,
    ⟨frameState [0x01#8, 0x83#8, 0x02#8, 0xC0#8, 0xF1#8], 0x01#8, 0x83#8, 0xC0#8, 0xF1#8, [0x02#8], by decide, by decide,
      by decide +kernel, by decide +kernel, by unfold State.holds; decide +kernel, by decide +kernel⟩⟩

theorem witness_DecodeComparesTheReceivedCrc :
    (∃ (s : State) (a f lo hi : Byte) (p : List Byte), s.flen.toNat = p.length + 4 ∧ p.length ≤ 252 ∧
      s.holds 0 (a :: f :: p ++ [lo, hi]) ∧ crc16 (a :: f :: p) = (hi.setWidth 16 <<< 8) ||| lo.setWidth 16) ∧
    ∃ (s : State) (a f lo hi : Byte) (p : List Byte), s.flen.toNat = p.length + 4 ∧ p.length ≤ 252 ∧
      s.holds 0 (a :: f :: p ++ [lo, hi]) ∧ crc16 (a :: f :: p) ≠ (hi.setWidth 16 <<< 8) ||| lo.setWidth 16 :=
  ⟨⟨frameState [0x01#8, 0x03#8, 0x40#8, 0x21#8], 0x01#8, 0x03#8, 0x40#8, 0x21#8, [], by decide, by decide,
      by unfold State.holds; decide +kernel, by decide +kernel⟩,
    ⟨frameState [0x01#8, 0x03#8, 0x21#8, 0x40#8], 0x01#8, 0x03#8, 0x21#8, 0x40#8, [], by decide, by decide,
      by unfold State.holds; decide +kernel, by decide +kernel⟩⟩

/-- One for each answer of `decode`. -/
theorem witness_DecodeRefinesTheSourceDecode :
    (∃ (s : State) (bs : List Byte), s.flen.toNat = bs.length ∧ bs.length ≤ 256 ∧ s.holds 0 bs ∧
      decodeFrame bs = .error .invalidData) ∧
    (∃ (s : State) (bs : List Byte), s.flen.toNat = bs.length ∧ bs.length ≤ 256 ∧ s.holds 0 bs ∧
      decodeFrame bs = .error .crcMismatch) ∧
    ∃ (s : State) (bs : List Byte) (fr : Frame), s.flen.toNat = bs.length ∧ bs.length ≤ 256 ∧ s.holds 0 bs ∧
      decodeFrame bs = .ok fr ∧ fr.exceptionCode = some 0x02#8 :=
  ⟨⟨frameState [0x01#8], [0x01#8], by decide, by decide, by unfold State.holds; decide, by decide +kernel⟩,
    ⟨frameState [0x01#8, 0x03#8, 0x21#8, 0x40#8], [0x01#8, 0x03#8, 0x21#8, 0x40#8], by decide, by decide,
      by unfold State.holds; decide, by decide +kernel⟩,
    ⟨frameState [0x01#8, 0x83#8, 0x02#8, 0xC0#8, 0xF1#8], [0x01#8, 0x83#8, 0x02#8, 0xC0#8, 0xF1#8],
      ⟨0x01#8, 0x83#8, [0x02#8]⟩, by decide, by decide, by unfold State.holds; decide, by decide +kernel, by decide⟩⟩

theorem witness_DecodeAfterEncodeReturnsTheFrame :
    (∃ (s t u : State) (p : List Byte), s.plen.toNat = p.length ∧ p.length ≤ 252 ∧ s.holds 2 p ∧
      exec .encode s = .next t ∧ u.flen = t.flen ∧ ∀ j, j < p.length + 4 → u.buf.read j = t.buf.read j) ∧
    ∃ s : State, 252 < s.plen.toNat :=
  ⟨⟨payloadState 0x01#8 0x83#8 [0x02#8], _, _, [0x02#8], by decide, by decide, by unfold State.holds; decide, rfl, rfl,
      fun _ _ => rfl⟩,
    ⟨{ State.reset with plen := 511 }, by decide⟩⟩

/-- The first bit of the first byte, and the last bit of the last. -/
theorem witness_DecodeDetectsEverySingleBitFlip :
    (∃ (s : State) (bs : List Byte) (i k : Nat), i = 0 ∧ k = 0 ∧ 4 ≤ bs.length ∧ bs.length ≤ 256 ∧
      crc16 (bs.take (bs.length - 2)) = bs.getD (bs.length - 1) 0 ++ bs.getD (bs.length - 2) 0 ∧
      i < bs.length ∧ k < 8 ∧ s.flen.toNat = bs.length ∧ s.holds 0 (bs.set i (bs.getD i 0 ^^^ (1#8 <<< k)))) ∧
    ∃ (s : State) (bs : List Byte) (i k : Nat), i + 1 = bs.length ∧ k = 7 ∧ 4 ≤ bs.length ∧ bs.length ≤ 256 ∧
      crc16 (bs.take (bs.length - 2)) = bs.getD (bs.length - 1) 0 ++ bs.getD (bs.length - 2) 0 ∧
      i < bs.length ∧ k < 8 ∧ s.flen.toNat = bs.length ∧ s.holds 0 (bs.set i (bs.getD i 0 ^^^ (1#8 <<< k))) :=
  ⟨⟨frameState [0x00#8, 0x03#8, 0x40#8, 0x21#8], [0x01#8, 0x03#8, 0x40#8, 0x21#8], 0, 0, by decide, by decide, by decide,
      by decide +kernel, by decide +kernel, by decide +kernel, by decide +kernel, by decide +kernel, by unfold State.holds; decide +kernel⟩,
    ⟨frameState [0x01#8, 0x03#8, 0x40#8, 0xA1#8], [0x01#8, 0x03#8, 0x40#8, 0x21#8], 3, 7, by decide, by decide, by decide,
      by decide +kernel, by decide +kernel, by decide +kernel, by decide +kernel, by decide +kernel, by unfold State.holds; decide +kernel⟩⟩

/-- With a code other than CRC_MISMATCH, and with CRC_MISMATCH. -/
theorem witness_FailedCommandWritesOnlyStatus :
    (∃ (i : Instr) (s t : State), exec i s = .next t ∧ t.status.err = true ∧ t.status.errcode ≠ 2) ∧
    ∃ (i : Instr) (s t : State), exec i s = .next t ∧ t.status.err = true ∧ t.status.errcode = 2 := by
  have h : ∀ i s (c : BitVec 4), ofNext (fun t => (t.status.err, t.status.errcode)) (exec i s) = some (true, c) →
      ∃ t, exec i s = .next t ∧ t.status.err = true ∧ t.status.errcode = c := fun i s c e => by
    obtain ⟨t, h1, h2⟩ := next_of_ofNext e
    injection h2 with h2 h3
    exact ⟨t, h1, h2, h3⟩
  obtain ⟨t, h1, h2, h3⟩ := h .encode { State.reset with plen := 253 } 3 (by decide +kernel)
  obtain ⟨u, h4, h5, h6⟩ := h .decode (frameState [0x01#8, 0x03#8, 0x21#8, 0x40#8]) 2 (by decide +kernel)
  exact ⟨⟨_, _, t, h1, h2, by rw [h3]; decide⟩, ⟨_, _, u, h4, h5, h6⟩⟩

/-- For CommandsKeepTheirFrame and CommandsIgnoreThePorts, for every command. -/
theorem witness_CommandsKeepTheirFrame : ∀ i : Instr, ∃ s t : State, exec i s = .next t := by
  intro i
  cases i <;> exact ⟨State.reset, _, rfl⟩

theorem witness_CmdWriteIsAcceptedWhenIdle :
    (∃ (s : State) (w : Word) (rest : List HostLine) (ts : List Turn),
      s.hostMoves (.write .w32 0x000#12 w) rest ts ∧ s.busy = false) ∧
    ∃ (s : State) (w : Word) (rest : List HostLine) (ts : List Turn),
      s.hostMoves (.write .w32 0x000#12 w) rest ts ∧ s.busy = true :=
  ⟨⟨withLine (w32 0x000#12 4#32) errorState, 4#32, [], [], by unfold State.hostMoves; decide⟩,
    ⟨withLine (w32 0x000#12 4#32) busyState, 4#32, [], [], by unfold State.hostMoves; decide⟩⟩

/-- At CMD and at the last reserved offset. -/
theorem witness_BusyWriteIsDiscarded :
    (∃ (s : State) (n : Width) (off : Offset) (v : Word) (rest : List HostLine) (ts : List Turn), off = 0x000#12 ∧
      s.hostMoves (.write n off v) rest ts ∧ s.busy = true ∧ busAllowed n off = true ∧ off ≠ 0x004#12) ∧
    ∃ (s : State) (n : Width) (off : Offset) (v : Word) (rest : List HostLine) (ts : List Turn), off = 0xFFC#12 ∧
      s.hostMoves (.write n off v) rest ts ∧ s.busy = true ∧ busAllowed n off = true ∧ off ≠ 0x004#12 :=
  ⟨⟨withLine (w32 0x000#12 4#32) busyState, .w32, 0x000#12, 4#32, [], [], by unfold State.hostMoves; decide⟩,
    ⟨withLine (w32 0xFFC#12 4#32) busyState, .w32, 0xFFC#12, 4#32, [], [], by unfold State.hostMoves; decide⟩⟩

/-- The edges of each case of a bus error. -/
theorem witness_BusErrorsAreExactlyThese :
    (busAllowed .w8 0x0FF#12 = false ∧ busAllowed .w8 0x100#12 = true ∧ busAllowed .w8 0x1FF#12 = true ∧
      busAllowed .w16 0x200#12 = false ∧ busAllowed .w16 0x1FF#12 = false ∧ busAllowed .w16 0x1FE#12 = true ∧
      busAllowed .w32 0xFFE#12 = false ∧ busAllowed .w32 0xFFC#12 = true) ∧
    (∃ (s : State) (n : Width) (off : Offset) (v : Word) (rest : List HostLine) (ts : List Turn),
      s.hostMoves (.write n off v) rest ts ∧ busAllowed n off = false) ∧
    ∃ (s : State) (n : Width) (off : Offset) (rest : List HostLine) (ts : List Turn),
      s.hostMoves (.read n off) rest ts ∧ busAllowed n off = false :=
  ⟨by decide,
    ⟨withLine (w8 0x004#12 4#32) busyState, .w8, 0x004#12, 4#32, [], [], by unfold State.hostMoves; decide⟩,
    ⟨withLine (r32 0x006#12) busyState, .w32, 0x006#12, [], [], by unfold State.hostMoves; decide⟩⟩

theorem witness_StatusWriteClearsByOne :
    (∃ (s : State) (v : Word) (rest : List HostLine) (ts : List Turn), s.hostMoves (.write .w32 0x004#12 v) rest ts) ∧
    ∃ (s : State) (x : Word), (busAccess (.read .w32 0x004#12) s).1 = .data x :=
  ⟨⟨withLine (w32 0x004#12 0xE#32) errorState, 0xE#32, [], [], by unfold State.hostMoves; decide⟩,
    ⟨errorState, 0x0000030E#32, by decide⟩⟩

/-- At the last byte of BUF, idle and busy. -/
theorem witness_BufWriteStoresItsLanes :
    (∃ (s : State) (n : Width) (i : Nat) (v : Word) (rest : List HostLine) (ts : List Turn), i < 256 ∧
      busAllowed n (BitVec.ofNat 12 (0x100 + i)) = true ∧
      s.hostMoves (.write n (BitVec.ofNat 12 (0x100 + i)) v) rest ts ∧ s.busy = false) ∧
    ∃ (s : State) (n : Width) (i : Nat) (v : Word) (rest : List HostLine) (ts : List Turn), i < 256 ∧
      busAllowed n (BitVec.ofNat 12 (0x100 + i)) = true ∧
      s.hostMoves (.write n (BitVec.ofNat 12 (0x100 + i)) v) rest ts ∧ s.busy = true :=
  ⟨⟨withLine (w8 0x1FF#12 4#32) State.reset, .w8, 255, 4#32, [], [], by unfold State.hostMoves; decide⟩,
    ⟨withLine (w32 0x1FC#12 4#32) busyState, .w32, 252, 4#32, [], [], by unfold State.hostMoves; decide⟩⟩

theorem witness_BufReadReturnsItsLanes :
    ∃ (s : State) (n : Width) (i : Nat) (bs : List Byte) (rest : List HostLine) (ts : List Turn), i < 256 ∧
      busAllowed n (BitVec.ofNat 12 (0x100 + i)) = true ∧ s.busy = false ∧ bs.length = n.bytes ∧ s.holds i bs ∧
      s.hostMoves (.read n (BitVec.ofNat 12 (0x100 + i))) rest ts :=
  ⟨withLine (r16 0x100#12) (frameState [0x01#8, 0x03#8]), .w16, 0, [0x01#8, 0x03#8], [], [], by decide, by decide,
    by decide, by decide, by unfold State.holds; decide, by unfold State.hostMoves; decide⟩

theorem witness_HostReadFlagsTheFirstUnwrittenByte :
    ∃ (s : State) (n : Width) (i j : Nat) (rest : List HostLine) (ts : List Turn), i < 256 ∧
      busAllowed n (BitVec.ofNat 12 (0x100 + i)) = true ∧ s.unwrittenRead = none ∧ s.firstUnwritten i n.bytes j ∧
      s.hostMoves (.read n (BitVec.ofNat 12 (0x100 + i))) rest ts :=
  ⟨withLine (r8 0x1FF#12) busyState, .w8, 255, 255, [], [], by decide, by decide, by decide,
    ⟨by decide, by decide, by decide, fun k h1 h2 => absurd h1 (by omega)⟩, by unfold State.hostMoves; decide⟩

/-- For RegistersReadTheirFields and RegistersTakeTheirWrites: an idle state, and the edges of the reserved offsets. -/
theorem witness_RegistersReadTheirFields :
    (∃ s : State, s.busy = false) ∧
    (∃ off : Offset, off.toNat % 4 = 0 ∧ off.toNat = 0x01C) ∧ (∃ off : Offset, off.toNat % 4 = 0 ∧ off.toNat = 0x0FC) ∧
    (∃ off : Offset, off.toNat % 4 = 0 ∧ off.toNat = 0x200) ∧ ∃ off : Offset, off.toNat % 4 = 0 ∧ off.toNat = 0xFFC :=
  ⟨⟨State.reset, by decide⟩, ⟨0x01C#12, by decide⟩, ⟨0x0FC#12, by decide⟩, ⟨0x200#12, by decide⟩, ⟨0xFFC#12, by decide⟩⟩

theorem busyState_inv : Inv busyState := by
  constructor
  · decide
  · decide
  · decide
  · decide
  · decide
  · decide
  · decide
  · intro i h
    cases h

theorem witness_BusyReadsFixTheseBits : ∃ s : State, Inv s ∧ s.busy = true := ⟨busyState, busyState_inv, by decide⟩

theorem witness_HostReadsHaveNoSideEffect :
    ∃ (s : State) (n : Width) (off : Offset) (rest : List HostLine) (ts : List Turn), s.hostMoves (.read n off) rest ts :=
  ⟨withLine (r32 0x018#12) busyState, .w32, 0x018#12, [], [], by unfold State.hostMoves; decide⟩

/-- With DONE = 0 and with DONE = 1. -/
theorem witness_WaitPollsUntilDone :
    (∃ (s : State) (rest : List HostLine) (ts : List Turn), s.status.done = false ∧ errcodeLegal s = true ∧
      s.program = .wait :: rest ∧ s.turns = .host :: ts) ∧
    ∃ (s : State) (rest : List HostLine) (ts : List Turn), s.status.done = true ∧ errcodeLegal s = true ∧
      s.program = .wait :: rest ∧ s.turns = .host :: ts :=
  ⟨⟨withLine .wait busyState, [], [], by decide⟩, ⟨withLine .wait errorState, [], [], by decide⟩⟩

/-- The first and the last address of the window, and the first beyond it. -/
theorem witness_WindowDecodesEveryOffset :
    offsetAt 8192 8192 = some 0x000#12 ∧ offsetAt 8192 12287 = some 0xFFF#12 ∧ offsetAt 8192 12288 = none ∧
    offsetAt 8192 8191 = none := by decide

theorem witness_ResetTurnResetsTheBlock :
    ∃ (s : State) (ts : List Turn), errcodeLegal s = true ∧ s.turns = .reset :: ts :=
  ⟨inFlight 3#32 [.reset] errorState, [], by decide⟩

/-- A write, a read and a poll in progress, and a host with no line left. -/
theorem witness_ResetCutsTheAccessShort :
    (∃ (s : State) (ts : List Turn) (a : Access) (rest : List HostLine), a = .write .w32 0x000#12 4#32 ∧
      errcodeLegal s = true ∧ s.turns = .resetInAccess :: ts ∧ s.program = .access a :: rest) ∧
    (∃ (s : State) (ts : List Turn) (a : Access) (rest : List HostLine), a = .read .w32 0x008#12 ∧
      errcodeLegal s = true ∧ s.turns = .resetInAccess :: ts ∧ s.program = .access a :: rest) ∧
    (∃ (s : State) (ts : List Turn) (rest : List HostLine),
      errcodeLegal s = true ∧ s.turns = .resetInAccess :: ts ∧ s.program = .wait :: rest) ∧
    ∃ (s : State) (ts : List Turn), errcodeLegal s = true ∧ s.turns = .resetInAccess :: ts ∧ s.program = [] :=
  ⟨⟨{ busyState with program := [w32 0x000#12 4#32], turns := [.resetInAccess] }, [], _, [], rfl, by decide⟩,
    ⟨{ busyState with program := [r32 0x008#12], turns := [.resetInAccess] }, [], _, [], rfl, by decide⟩,
    ⟨{ busyState with program := [.wait], turns := [.resetInAccess] }, [], [], by decide⟩,
    ⟨{ busyState with turns := [.resetInAccess] }, [], by decide⟩⟩

theorem witness_StepKeepsTheInvariant : ∃ s t : State, Inv s ∧ step s = .next t := ⟨busyState, _, busyState_inv, rfl⟩

/-- For FaultFlagIsNeverCleared: a raised flag, by a reset turn; and a good state reached. -/
theorem witness_FaultFlagIsNeverCleared :
    (∃ (s t : State) (i : Nat), step s = .next t ∧ s.unwrittenRead = some i) ∧
    ∃ s t : State, step s = .next t ∧ t.good :=
  ⟨⟨{ State.reset with unwrittenRead := some 5, turns := [.reset] }, _, 5, rfl, rfl⟩, ⟨busyState, _, rfl, rfl⟩⟩

theorem witness_StepStopsOnlyOnReservedErrCode :
    (∃ s : State, s.status.errcode.toNat = 4) ∧ ∃ s : State, s.status.errcode.toNat = 5 :=
  ⟨⟨{ State.reset with status := ⟨true, true, false, false, false, 4⟩ }, by decide⟩,
    ⟨{ State.reset with status := ⟨true, true, false, false, false, 5⟩ }, by decide⟩⟩

/-- The host has read DONE = 1, and moves on to an access that keeps the protocol. -/
def seenState (l : HostLine) : State :=
  withLine l { frameState [0x01#8, 0x03#8] with trace := [(.read .w32 0x004#12, .data 0x00000002#32)] }

theorem witness_SeenIdleStaysSound : ∃ s t : State, Inv s ∧ SeenIdleSound s ∧ seenIdle s.trace = true ∧ step s = .next t := by
  refine ⟨seenState (w32 0x000#12 3#32), _, ?_, ?_, by decide, rfl⟩
  · exact ⟨by decide, by decide, by decide, by decide, by decide, by decide, by decide, fun i h => by cases h⟩
  · intro _
    decide

/-- A write and a read of written bytes. -/
theorem witness_ProtocolKeepsBerrAndValues :
    (∃ (s t : State) (a : Access) (rest : List HostLine) (ts : List Turn), a = .write .w32 0x014#12 8#32 ∧
      SeenIdleSound s ∧ s.hostMoves a rest ts ∧ needsIdle a = true ∧ seenIdle s.trace = true ∧ step s = .next t) ∧
    ∃ (s t : State) (a : Access) (rest : List HostLine) (ts : List Turn), a = .read .w16 0x100#12 ∧ SeenIdleSound s ∧
      s.hostMoves a rest ts ∧ needsIdle a = true ∧ seenIdle s.trace = true ∧ step s = .next t ∧
      (∀ n off i k, a = .read n off → targetOf off = .buf i → k < n.bytes → s.buf.read (i + k) ≠ none) := by
  refine ⟨⟨seenState (w32 0x014#12 8#32), _, _, [], [], rfl, fun _ => by decide, by unfold State.hostMoves; decide,
      by decide, by decide, rfl⟩,
    ⟨seenState (r16 0x100#12), _, _, [], [], rfl, fun _ => by decide, by unfold State.hostMoves; decide, by decide,
      by decide, rfl, ?_⟩⟩
  intro n off i k ha ht hk
  injection ha with h1 h2
  subst h1 h2
  have hi : i = 0 := by
    injection ht.symm.trans (show targetOf 0x100#12 = .buf 0 by decide)
  subst hi
  have hk' : k < 2 := hk
  obtain rfl | rfl : k = 0 ∨ k = 1 := by omega
  · decide
  · decide

theorem witness_HostCannotDisturbTheCommandInFlight :
    ∃ (s : State) (ts : List Turn), errcodeLegal s = true ∧ s.busy = true ∧ s.turns = .host :: ts :=
  ⟨withLine (w32 0x014#12 8#32) busyState, [], by decide⟩

/-- With the host moving twice before the engine. -/
theorem witness_ResultsDoNotDependOnLatency :
    ∃ (k : Nat) (s u : State) (w : Word) (i : Instr) (ts : List Turn), k = 2 ∧ errcodeLegal s = true ∧ s.cur = some w ∧
      decodeCmd w = .instr i ∧ s.turns = List.replicate k .host ++ .engine :: ts ∧ exec i s = .next u ∧
      u.draws = s.draws :=
  ⟨2, inFlight 3#32 [.host, .host, .engine] (frameState [0x01#8, 0x03#8]), _, 3#32, .crcBuf, [], rfl, by decide, by decide,
    by decide, by decide, rfl, by decide⟩

theorem witness_AcceptedCommandCompletes :
    ∃ s : State, errcodeLegal s = true ∧ s.busy = true ∧ ∀ r ∈ s.turns, r = .host ∨ r = .engine :=
  ⟨inFlight 3#32 [.host, .host] State.reset, by decide⟩

/-- DEC changes by a DECODE; CRC.VALUE changes by a CRC_BUF. -/
theorem witness_OnlyCommandsAndResetWriteResults :
    (∃ s t : State, step s = .next t ∧ (∀ ts, s.turns ≠ .reset :: ts ∧ s.turns ≠ .resetInAccess :: ts) ∧
      ¬(t.dec = s.dec ∧ t.status.exc = s.status.exc ∧ t.status.excv = s.status.excv)) ∧
    ∃ s t : State, step s = .next t ∧ (∀ ts, s.turns ≠ .reset :: ts ∧ s.turns ≠ .resetInAccess :: ts) ∧ t.crc ≠ s.crc := by
  obtain ⟨t, h, ht⟩ := next_of_ofNext (f := fun t => t.dec.func) (a := 0x03#8)
    (o := step (inFlight 5#32 [] (frameState [0x01#8, 0x03#8, 0x40#8, 0x21#8]))) (by decide +kernel)
  obtain ⟨u, g, hu⟩ := next_of_ofNext (f := fun t => t.crc) (a := 0x2140#16) (o := step busyState) (by decide +kernel)
  have hs : ∀ ts, ([] : List Turn) ≠ .reset :: ts ∧ ([] : List Turn) ≠ .resetInAccess :: ts :=
    fun _ => ⟨(List.cons_ne_nil _ _).symm, (List.cons_ne_nil _ _).symm⟩
  refine ⟨⟨_, t, h, hs, fun hh => ?_⟩, ⟨_, u, g, hs, ?_⟩⟩
  · rw [hh.1] at ht
    exact absurd ht (by decide)
  · rw [hu]
    decide

/-- BERR set by a busy write; BERR cleared by a STATUS write. -/
theorem witness_BerrIsSetByBusyWritesOnly :
    (∃ s t : State, step s = .next t ∧ s.status.berr = false ∧ t.status.berr = true) ∧
    ∃ s t : State, step s = .next t ∧ s.status.berr = true ∧ t.status.berr = false :=
  ⟨⟨withLine (w32 0x014#12 8#32) busyState, _, rfl, by decide, by decide⟩,
    ⟨withLine (w32 0x004#12 8#32) errorState, _, rfl, by decide, by decide⟩⟩

end Sys2Proof.Machine.Tests
end

section
/-! The window of the block (spec/00_scope.md R9, R10). -/

namespace Sys2Proof.Machine

/-- An offset and its host address determine each other, at any base (R10). -/
theorem offsetAt_eq_some_iff (base addr : Nat) (off : Offset) :
    offsetAt base addr = some off ↔ addr = hostAddress base off := by
  have hoff : off.toNat < 4096 := off.isLt
  unfold offsetAt hostAddress Config.windowSize
  split
  · next hin =>
    rw [Option.some_inj, ← BitVec.toNat_inj, BitVec.toNat_ofNat, Nat.mod_eq_of_lt (by omega)]
    omega
  · next hout => exact iff_of_false nofun (by omega)

/-- Exactly the addresses outside the 4 KiB from the base decode to no offset (R9). -/
theorem offsetAt_eq_none_iff (base addr : Nat) :
    offsetAt base addr = none ↔ addr < base ∨ base + 4096 ≤ addr := by
  unfold offsetAt Config.windowSize
  split
  · exact iff_of_false nofun (by omega)
  · exact iff_of_true rfl (by omega)

/-- Settles O45: an offset and its host address determine each other, and the base is a multiple of the window's size. -/
theorem windowDecodesEveryOffset : Obligations.WindowDecodesEveryOffset :=
  ⟨fun base off => (offsetAt_eq_some_iff base _ off).2 rfl,
    fun base addr off => (offsetAt_eq_some_iff base addr off).1,
    offsetAt_eq_none_iff,
    Nat.mul_mod_right Config.windowSize Config.mbPage⟩

end Sys2Proof.Machine
end

section
/-! The step of a state by the turn that comes next, and what a completion ends in (spec/60_exceptions.md R162). -/

namespace Sys2Proof.Machine

/-- The next turn of the schedule is taken (R59). -/
theorem step_turn {s : State} {t : Turn} {ts : List Turn} (hl : errcodeLegal s = true) (ht : s.turns = t :: ts) :
    step s = takeTurn t { s with turns := ts } := by
  simp only [step, hl, if_true, nextEvent, ht]

/-- With no turn scheduled a command in flight completes (R11; log 6). -/
theorem step_fair_inFlight {s : State} {w : Word} (hl : errcodeLegal s = true) (hw : s.cur = some w)
    (ht : s.turns = []) : step s = performWord w s := by
  have hb : s.busy = true := (busy_iff s).2 ⟨w, hw⟩
  simp only [step, hl, if_true, nextEvent, ht, fairTurn, hb, engineTurn, hw]

/-- The engine's turn completes the command in flight. -/
theorem takeTurn_engine {s : State} {w : Word} (hw : s.cur = some w) : takeTurn .engine s = performWord w s := by
  simp only [takeTurn, engineTurn, hw]

/-- Every command ends in `complete`, on every path (R162). -/
theorem exec_completes (i : Instr) (s : State) : ∃ code u, exec i s = .next (complete code u) := by
  cases i with
  | nop => exact ⟨.none, s, rfl⟩
  | crcInit => exact ⟨.none, { s with crc := Config.crcSeed }, rfl⟩
  | crcFeed b => exact ⟨.none, { s with crc := crc16Update s.crc b }, rfl⟩
  | crcBuf =>
    rcases Nat.lt_or_ge Config.bufSize (flenOf s) with h | h
    · exact ⟨_, _, execCrcBuf_long h⟩
    · exact ⟨_, _, execCrcBuf_read h⟩
  | encode =>
    rcases Nat.lt_or_ge Config.maxPlen (plenOf s) with h | h
    · exact ⟨_, _, execEncode_long h⟩
    · exact ⟨_, _, execEncode_pack h⟩
  | decode =>
    rcases Nat.lt_or_ge Config.maxFlen (flenOf s) with hmax | hmax
    · exact ⟨_, _, execDecode_long hmax⟩
    · rcases Nat.lt_or_ge (flenOf s) Config.minFlen with hmin | hmin
      · exact ⟨_, _, execDecode_short hmin⟩
      · have hread := execDecode_read hmin hmax
        split at hread
        · exact ⟨_, _, hread⟩
        · exact ⟨_, _, hread⟩

/-- Every accepted word, legal or not, ends in `complete` (R151, R162). -/
theorem performWord_completes (w : Word) (s : State) : ∃ code u, performWord w s = .next (complete code u) := by
  cases h : decodeCmd w with
  | instr i => rw [performWord_instr h]; exact exec_completes i s
  | illegal v => exact ⟨_, _, performWord_illegal h s⟩

end Sys2Proof.Machine
end

section
/-! The host while a command is in flight (spec/00_scope.md R14, spec/70_reset_and_hazards.md R195 and R196). -/

namespace Sys2Proof.Machine

/-- A host turn is no access, or one bus access; beside it only the program and the trace change. -/
theorem hostTurn_cases (s : State) :
    hostTurn s = s ∨
      ∃ a p q tr, hostTurn s = { (busAccess a { s with program := p }).2 with program := q, trace := tr } := by
  unfold hostTurn
  split
  · exact .inl rfl
  · exact .inr ⟨_, _, _, _, rfl⟩
  · split
    · exact .inr ⟨pollAccess, s.program, _, _, rfl⟩
    · exact .inr ⟨pollAccess, s.program, _, _, rfl⟩

/-- All that a bus access can do while a command is in flight: a W1C write of STATUS, BERR set, or at most a free value
drawn and the fault flag raised (R31, R57, R195). -/
theorem busAccess_busy_cases {s : State} (hb : s.busy = true) (a : Access) :
    (∃ v, (busAccess a s).2 = writeStatus v s) ∨ (busAccess a s).2 = setBerr s ∨
      ∃ k u, (busAccess a s).2 = { s with draws := k, unwrittenRead := u } := by
  cases a with
  | write n off v =>
    simp only [busAccess]
    split
    · simp only [hostWrite_busy hb]
      split
      · exact .inl ⟨v, rfl⟩
      · exact .inr (.inl rfl)
    · exact .inr (.inr ⟨_, _, rfl⟩)
  | read n off =>
    simp only [busAccess]
    split
    · exact .inr (.inr ⟨_, _, readTarget_state n s (targetOf off)⟩)
    · exact .inr (.inr ⟨_, _, rfl⟩)

/-- All that a host turn can do while a command is in flight, beside its effect on the program and the trace. -/
theorem hostTurn_busy_cases {s : State} (hb : s.busy = true) :
    ∃ p tr, (∃ v, hostTurn s = { writeStatus v s with program := p, trace := tr }) ∨
      hostTurn s = { setBerr s with program := p, trace := tr } ∨
      ∃ k u, hostTurn s = { s with draws := k, unwrittenRead := u, program := p, trace := tr } := by
  rcases hostTurn_cases s with h | ⟨a, p, q, tr, h⟩
  · exact ⟨s.program, s.trace, .inr (.inr ⟨s.draws, s.unwrittenRead, h⟩)⟩
  · refine ⟨q, tr, ?_⟩
    rw [h]
    rcases busAccess_busy_cases (s := { s with program := p }) hb a with ⟨v, ha⟩ | ha | ⟨k, u, ha⟩
    · exact .inl ⟨v, by rw [ha]; rfl⟩
    · exact .inr (.inl (by rw [ha]; rfl))
    · exact .inr (.inr ⟨k, u, by rw [ha]⟩)

/-- `s` with all that the host can reach while a command is in flight taken from `t`. -/
def State.withHostPart (s t : State) : State :=
  { s with
    status :=
      { s.status with
        done := t.status.done
        err := t.status.err
        errcode := t.status.errcode
        berr := t.status.berr }
    unwrittenRead := t.unwrittenRead
    draws := t.draws
    program := t.program
    trace := t.trace }

/-- While a command is in flight a host turn changes the host's part of the state only (R14, R195). -/
theorem hostTurn_busy {s : State} (hb : s.busy = true) : hostTurn s = s.withHostPart (hostTurn s) := by
  obtain ⟨p, tr, ⟨v, h⟩ | h | ⟨k, u, h⟩⟩ := hostTurn_busy_cases hb
  · rw [h]; rfl
  · rw [h]; rfl
  · rw [h]; rfl

/-- A W1C write of STATUS keeps ERRCODE legal: it clears it or leaves it (R26). -/
theorem writeStatus_errcodeLegal {s : State} (hl : errcodeLegal s = true) (v : Word) :
    errcodeLegal (writeStatus v s) = true := by
  unfold errcodeLegal at hl ⊢
  rw [writeStatus_errcode]
  split
  · rfl
  · exact hl

/-- While a command is in flight a host turn keeps ERRCODE legal. -/
theorem hostTurn_busy_errcodeLegal {s : State} (hb : s.busy = true) (hl : errcodeLegal s = true) :
    errcodeLegal (hostTurn s) = true := by
  obtain ⟨p, tr, ⟨v, h⟩ | h | ⟨k, u, h⟩⟩ := hostTurn_busy_cases hb
  · rw [h]; exact writeStatus_errcodeLegal hl v
  · rw [h]; exact hl
  · rw [h]; exact hl

/-- Settles O55: the host's turn changes the host's part of the state only. -/
theorem hostCannotDisturbTheCommandInFlight : Obligations.HostCannotDisturbTheCommandInFlight := by
  intro s ts hl hb ht
  refine ⟨hostTurn { s with turns := ts }, step_turn hl ht, ?_⟩
  rw [hostTurn_busy (s := { s with turns := ts }) hb]
  exact ⟨rfl, rfl, rfl, rfl, rfl, rfl, rfl, rfl, rfl, rfl⟩

end Sys2Proof.Machine
end

section
/-! Bounded completion (spec/00_scope.md R11, spec/60_exceptions.md R162). -/

namespace Sys2Proof.Machine

/-- A run of at most `n` steps from `s` reaches an idle state with DONE = 1. -/
def CompletesWithin (n : Nat) (s : State) : Prop :=
  ∃ (k : Nat) (t : State), k ≤ n ∧ core.run k s = .next t ∧ t.busy = false ∧ t.status.done = true

/-- A step that performs a word is the completion. -/
theorem completesWithin_of_performs {s u : State} {w : Word} (h : step s = performWord w u) (n : Nat) :
    CompletesWithin (n + 1) s := by
  obtain ⟨code, v, hv⟩ := performWord_completes w u
  exact ⟨1, complete code v, by omega, run_next (h.trans hv) 0, rfl, rfl⟩

/-- One step more is allowed before a state from which the command completes. -/
theorem CompletesWithin.of_step {s t : State} {n : Nat} (h : step s = .next t) (ht : CompletesWithin n t) :
    CompletesWithin (n + 1) s := by
  obtain ⟨k, u, hk, hrun, hidle, hdone⟩ := ht
  exact ⟨k + 1, u, by omega, (run_next h k).trans hrun, hidle, hdone⟩

/-- By induction on the schedule: the engine's turn completes the command, a host turn leaves it in flight, and after
the last turn the fair step completes it. -/
theorem completesWithin_schedule (ts : List Turn) {s : State} (ht : s.turns = ts) (hl : errcodeLegal s = true)
    (hb : s.busy = true) (hts : ∀ r ∈ ts, r = .host ∨ r = .engine) : CompletesWithin (ts.length + 1) s := by
  induction ts generalizing s with
  | nil =>
    obtain ⟨w, hw⟩ := (busy_iff s).1 hb
    exact completesWithin_of_performs (step_fair_inFlight hl hw ht) 0
  | cons r ts ih =>
    have hstep := step_turn hl ht
    rcases hts r List.mem_cons_self with rfl | rfl
    · have hkept := hostTurn_busy (s := { s with turns := ts }) hb
      refine .of_step hstep (ih (congrArg State.turns hkept :) ?_ ?_ fun r hr => hts r (List.mem_cons_of_mem _ hr))
      · exact hostTurn_busy_errcodeLegal (s := { s with turns := ts }) hb hl
      · exact (congrArg State.busy hkept :).trans hb
    · obtain ⟨w, hw⟩ := (busy_iff s).1 hb
      exact completesWithin_of_performs (hstep.trans (takeTurn_engine hw)) _

/-- Settles O57, by induction on the schedule. -/
theorem acceptedCommandCompletes : Obligations.AcceptedCommandCompletes :=
  fun s hl hb hts => completesWithin_schedule s.turns rfl hl hb hts

end Sys2Proof.Machine
end

section
/-! What a completion does, said once for the invariant and the frames of a step (spec/60_exceptions.md R162). -/

namespace Sys2Proof.Machine

@[simp] theorem readBytes_crc (i n : Nat) (s : State) : (readBytes i n s).2.crc = s.crc := by rw [readBytes_state]
@[simp] theorem readBytes_dec (i n : Nat) (s : State) : (readBytes i n s).2.dec = s.dec := by rw [readBytes_state]

/-- The command has made `u` of the state `s` and hands it to `complete` with the code. -/
inductive Performs (s : State) : Instr → ErrCode → State → Prop where
  /-- NOP (R150), and every length that is refused (R106, R124). -/
  | keeps (i : Instr) (code : ErrCode) : Performs s i code s
  /-- CRC_INIT, CRC_FEED, CRC_BUF, and DECODE on a CRC mismatch: bytes are read and CRC.VALUE is written (R103 to R105,
  R133). -/
  | setsCrc {i : Instr} (code : ErrCode) {n : Nat} (c : Half) (hi : i ≠ .nop) (hn : n ≤ Config.bufSize) :
      Performs s i code { (readBytes 0 n s).2 with crc := c }
  /-- ENCODE of a payload that fits (R122). -/
  | packs (lo hi : Byte) (c : Half) (hp : plenOf s ≤ Config.maxPlen) :
      Performs s .encode .none
        { (readBytes 0 (plenOf s + 2) (putHeader s)).2 with
          buf := ((putHeader s).buf.write (2 + plenOf s) lo).write (3 + plenOf s) hi
          flen := BitVec.ofNat 9 (plenOf s + 4)
          crc := c }
  /-- DECODE of a valid frame (R126). -/
  | records (bs : List Byte) {n : Nat} (c : Half) (hn : n ≤ Config.bufSize) :
      Performs s .decode .none (recordFrame bs n { (readBytes 0 n s).2 with crc := c })

/-- Every command performs one of these and completes, on every path (R162). -/
theorem exec_performs (i : Instr) (s : State) :
    ∃ code u, exec i s = .next (complete code u) ∧ Performs s i code u := by
  cases i with
  | nop => exact ⟨_, _, rfl, .keeps .nop .none⟩
  | crcInit => exact ⟨_, _, rfl, .setsCrc .none (n := 0) Config.crcSeed nofun (Nat.zero_le _)⟩
  | crcFeed b => exact ⟨_, _, rfl, .setsCrc .none (n := 0) (crc16Update s.crc b) nofun (Nat.zero_le _)⟩
  | crcBuf =>
    rcases Nat.lt_or_ge Config.bufSize (flenOf s) with h | h
    · exact ⟨_, _, execCrcBuf_long h, .keeps _ _⟩
    · exact ⟨_, _, execCrcBuf_read h, .setsCrc _ _ nofun h⟩
  | encode =>
    rcases Nat.lt_or_ge Config.maxPlen (plenOf s) with h | h
    · exact ⟨_, _, execEncode_long h, .keeps _ _⟩
    · exact ⟨_, _, execEncode_pack h, .packs _ _ _ h⟩
  | decode =>
    rcases Nat.lt_or_ge Config.maxFlen (flenOf s) with hmax | hmax
    · exact ⟨_, _, execDecode_long hmax, .keeps _ _⟩
    · rcases Nat.lt_or_ge (flenOf s) Config.minFlen with hmin | hmin
      · exact ⟨_, _, execDecode_short hmin, .keeps _ _⟩
      · have hread := execDecode_read hmin hmax
        split at hread
        · exact ⟨_, _, hread, .records _ _ hmax⟩
        · exact ⟨_, _, hread, .setsCrc _ _ nofun hmax⟩

/-- An accepted word performs the command it decodes to; an illegal one keeps the state (R151). Either completes. -/
theorem performWord_performs (w : Word) (s : State) :
    ∃ code u, performWord w s = .next (complete code u) ∧
      (u = s ∨ ∃ i, decodeCmd w = .instr i ∧ Performs s i code u) := by
  cases h : decodeCmd w with
  | instr i =>
    obtain ⟨code, u, hexec, hu⟩ := exec_performs i s
    exact ⟨code, u, (performWord_instr h s).trans hexec, .inr ⟨i, rfl, hu⟩⟩
  | illegal v => exact ⟨_, s, performWord_illegal h s, .inl rfl⟩

end Sys2Proof.Machine
end

section
/-! Each operation of the machine keeps the invariant, and so does every step. -/

namespace Sys2Proof.Machine

/-- The invariant speaks of these fields alone. -/
theorem Inv.congr {s t : State} (h : Inv s) (hbuf : t.buf = s.buf) (hstatus : t.status = s.status)
    (hcur : t.cur = s.cur) (hdec : t.dec = s.dec) (hflag : t.unwrittenRead = s.unwrittenRead) : Inv t where
  bufWf := hbuf ▸ h.bufWf
  errcodeLegal := hstatus ▸ h.errcodeLegal
  errIff := hstatus ▸ h.errIff
  busyClear := fun hb => hstatus ▸ h.busyClear ((congrArg Option.isSome hcur).symm.trans hb)
  excIsFunc := by rw [hstatus, hdec]; exact h.excIsFunc
  excvExc := hstatus ▸ h.excvExc
  exccodeZero := by rw [hstatus, hdec]; exact h.exccodeZero
  flagInBuf := hflag ▸ h.flagInBuf

variable {s : State}

theorem Inv.withBuf (h : Inv s) {m : Memory} (hm : m.wf) : Inv { s with buf := m } :=
  { h with bufWf := hm }

/-- Reading a range of BUF raises the fault only for a byte of the range. -/
theorem Inv.readBytes (h : Inv s) {i n : Nat} (hn : i + n ≤ Config.bufSize) : Inv (readBytes i n s).2 := by
  rw [readBytes_state]
  refine { h with flagInBuf := fun j hj => ?_ }
  rcases readBytes_flag_range i n s with hkept | ⟨k, _, hk, hraised⟩
  · exact h.flagInBuf j (hkept.symm.trans hj)
  · obtain rfl : k = j := Option.some.inj (hraised.symm.trans hj)
    omega

theorem Inv.putHeader (h : Inv s) : Inv (putHeader s) :=
  h.withBuf (write_wf (write_wf h.bufWf (by decide) _) (by decide) _)

/-- A decoded frame sets EXC, EXCV and EXCCODE together with DEC.FUNC (R126). -/
theorem Inv.recordFrame (h : Inv s) (bs : List Byte) (n : Nat) : Inv (recordFrame bs n s) :=
  { h with
    excIsFunc := rfl
    excvExc := fun hv => (Bool.and_eq_true_iff.1 hv).1
    exccodeZero := fun hv => if_neg (Bool.eq_false_iff.1 hv) }

/-- ERR is recorded with ERRCODE, and BUSY is cleared (R162). -/
theorem Inv.complete (h : Inv s) (code : ErrCode) : Inv (complete code s) :=
  { h with
    errcodeLegal := errCode_bits_legal code
    errIff := decide_eq_true_iff.trans (not_congr (errCode_bits_eq_zero code).symm)
    busyClear := nofun }

/-- The record of the last command is cleared (R161). -/
theorem Inv.accept (h : Inv s) (w : Word) : Inv (accept w s) :=
  { h with
    errcodeLegal := Nat.zero_le 4
    errIff := iff_of_false nofun (fun hne => hne rfl)
    busyClear := fun _ => ⟨rfl, rfl⟩ }

theorem Inv.setBerr (h : Inv s) : Inv (setBerr s) := { h with }

/-- ERR and ERRCODE are cleared together (R31). -/
theorem Inv.writeStatus (h : Inv s) (v : Word) : Inv (writeStatus v s) :=
  { h with
    errcodeLegal := by
      rw [writeStatus_errcode]
      split
      · exact Nat.zero_le 4
      · exact h.errcodeLegal
    errIff := by
      rw [writeStatus_err, writeStatus_errcode]
      cases v.getLsbD 2
      · simpa using h.errIff
      · simp
    busyClear := fun hb => by
      obtain ⟨hdone, herr⟩ := h.busyClear hb
      simp [hdone, herr] }

theorem inv_reset : Inv State.reset where
  bufWf := reset_buf_wf
  errcodeLegal := by decide
  errIff := by decide
  busyClear := by decide
  excIsFunc := by decide
  excvExc := by decide
  exccodeZero := by decide
  flagInBuf := nofun

/-- After reset only the fault flag is what it was (R190). -/
theorem Inv.resetBlock (h : Inv s) : Inv (resetBlock s) :=
  { inv_reset with flagInBuf := h.flagInBuf }

/-! ## Completions -/

theorem Inv.performs (h : Inv s) {i : Instr} {code : ErrCode} {u : State} (hu : Performs s i code u) : Inv u := by
  cases hu with
  | keeps => exact h
  | setsCrc _ c hi hn => exact (h.readBytes (by omega)).congr rfl rfl rfl rfl rfl
  | packs lo hi c hp =>
    have hp : plenOf s + 4 ≤ Config.bufSize := by
      simp only [Config.maxPlen, Config.maxFlen, Config.bufSize] at hp ⊢
      omega
    have hread := h.putHeader.readBytes (i := 0) (n := plenOf s + 2) (by omega)
    have hlo := write_wf h.putHeader.bufWf (i := 2 + plenOf s) (by omega) lo
    exact (hread.withBuf (write_wf hlo (by omega) hi)).congr rfl rfl rfl rfl rfl
  | records bs c hn =>
    refine Inv.recordFrame ?_ bs _
    exact (h.readBytes (by omega)).congr rfl rfl rfl rfl rfl

theorem Inv.performWord (h : Inv s) {w : Word} {t : State} (ht : performWord w s = .next t) : Inv t := by
  obtain ⟨code, u, hw, hu⟩ := performWord_performs w s
  obtain rfl : Machine.complete code u = t := Host.Outcome.next.inj (hw.symm.trans ht)
  rcases hu with rfl | ⟨i, _, hu⟩
  · exact h.complete code
  · exact (h.performs hu).complete code

/-! ## The bus -/

/-- Only a read of BUF can raise the fault (R167). -/
theorem readTarget_unwrittenRead (n : Width) (s : State) {g : Target} (hg : ∀ i, g ≠ .buf i) :
    (readTarget n s g).2.unwrittenRead = s.unwrittenRead := by
  cases g with
  | buf i => exact absurd rfl (hg i)
  | cmd => rfl
  | reserved => rfl
  | hdr => rfl
  | status => simp only [readTarget]; split <;> rfl
  | crc => simp only [readTarget]; split <;> rfl
  | plen => simp only [readTarget]; split <;> rfl
  | flen => simp only [readTarget]; split <;> rfl
  | dec => simp only [readTarget]; split <;> rfl

theorem Inv.readTarget (h : Inv s) {n : Width} {off : Offset} (ha : busAllowed n off = true) :
    Inv (readTarget n s (targetOf off)).2 := by
  by_cases hg : ∃ i, targetOf off = .buf i
  · obtain ⟨i, hi⟩ := hg
    rw [hi]
    show Inv (readBuf i n.bytes s).2
    rw [readBuf_state]
    exact (h.readBytes (allowed_buf_bound ha hi)).congr (by simp) (by simp) (by simp) (by simp) rfl
  · rw [readTarget_state]
    exact h.congr rfl rfl rfl rfl (readTarget_unwrittenRead n s fun i hi => hg ⟨i, hi⟩)

theorem Inv.hostWrite (h : Inv s) {n : Width} {off : Offset} (ha : busAllowed n off = true) (v : Word) :
    Inv (hostWrite n off v s) := by
  cases hb : s.busy with
  | true =>
    rw [hostWrite_busy hb]
    split
    · exact h.writeStatus v
    · exact h.setBerr
  | false =>
    rw [hostWrite_idle hb]
    cases hg : targetOf off with
    | cmd => exact h.accept v
    | status => exact h.writeStatus v
    | buf i => exact h.withBuf (writeBytes_wf h.bufWf ((length_bytesOf v n.bytes).symm ▸ allowed_buf_bound ha hg))
    | hdr => exact h.congr rfl rfl rfl rfl rfl
    | plen => exact h.congr rfl rfl rfl rfl rfl
    | flen => exact h.congr rfl rfl rfl rfl rfl
    | crc => exact h
    | dec => exact h
    | reserved => exact h

theorem Inv.busAccess (h : Inv s) (a : Access) : Inv (busAccess a s).2 := by
  cases a with
  | write n off v =>
    simp only [Machine.busAccess]
    split
    · next ha => exact h.hostWrite ha v
    · exact h
  | read n off =>
    simp only [Machine.busAccess]
    split
    · next ha => exact h.readTarget ha
    · exact h

theorem Inv.hostTurn (h : Inv s) : Inv (hostTurn s) := by
  rcases hostTurn_cases s with hs | ⟨a, p, q, tr, hs⟩
  · rw [hs]
    exact h
  · have hp : Inv { s with program := p } := h.congr rfl rfl rfl rfl rfl
    rw [hs]
    exact (hp.busAccess a).congr rfl rfl rfl rfl rfl

/-- An access that reset cuts short draws at most a free value (R191). -/
theorem Inv.abortAccess (h : Inv s) (a : Access) : Inv (abortAccess a s) := by
  cases a with
  | write n off v => exact h.congr rfl rfl rfl rfl rfl
  | read n off => exact h.congr rfl rfl rfl rfl rfl

theorem Inv.resetInAccessTurn (h : Inv s) : Inv (resetInAccessTurn s) := by
  unfold Machine.resetInAccessTurn
  split
  · exact h.resetBlock
  · next a rest _ =>
    have hrest : Inv { s with program := rest } := h.congr rfl rfl rfl rfl rfl
    exact hrest.resetBlock.abortAccess a
  · exact h.resetBlock.abortAccess _

/-- Settles O50: each kind of step keeps the invariant. -/
theorem stepKeepsTheInvariant : Obligations.StepKeepsTheInvariant := by
  intro s t h ht
  have hturns (ts : List Turn) : Inv { s with turns := ts } := h.congr rfl rfl rfl rfl rfl
  obtain ⟨-, ⟨w, ts, -, -, hw⟩ | ⟨ts, -, rfl⟩ | ⟨ts, -, -, rfl⟩ | ⟨ts, -, rfl⟩ | ⟨ts, -, rfl⟩⟩ := step_cases ht
  · exact (hturns ts).performWord hw
  · exact (hturns ts).hostTurn
  · exact hturns ts
  · exact (hturns ts).resetBlock
  · exact (hturns ts).resetInAccessTurn

end Sys2Proof.Machine
end

section
/-! Where a step answers a next state (spec/93_implementation_defined.md U8). -/

namespace Sys2Proof.Machine

theorem engineTurn_answers (s : State) : ∃ t, engineTurn s = .next t := by
  unfold engineTurn
  split
  · next w _ =>
    obtain ⟨code, u, h⟩ := performWord_completes w s
    exact ⟨_, h⟩
  · exact ⟨s, rfl⟩

theorem takeTurn_answers (r : Turn) (s : State) : ∃ t, takeTurn r s = .next t := by
  cases r with
  | host => exact ⟨_, rfl⟩
  | engine => exact engineTurn_answers s
  | reset => exact ⟨_, rfl⟩
  | resetInAccess => exact ⟨_, rfl⟩

theorem fairTurn_answers (s : State) : ∃ t, fairTurn s = .next t := by
  unfold fairTurn
  split
  · exact engineTurn_answers s
  · exact ⟨_, rfl⟩

theorem nextEvent_answers (s : State) : ∃ t, nextEvent s = .next t := by
  unfold nextEvent
  split
  · exact fairTurn_answers s
  · exact takeTurn_answers _ _

/-- Settles O52: the check of ERRCODE is the one stop, and every event answers a next state. -/
theorem stepStopsOnlyOnReservedErrCode : Obligations.StepStopsOnlyOnReservedErrCode := by
  refine fun s => ⟨fun hl => ?_, fun hl => if_neg (mt of_decide_eq_true (Nat.not_le.2 hl))⟩
  obtain ⟨t, ht⟩ := nextEvent_answers s
  exact ⟨t, (if_pos (decide_eq_true hl)).trans ht⟩

end Sys2Proof.Machine
end

section
/-! The results of a command (spec/20_memory.md R57): which operations write DEC, EXC, EXCV and CRC.VALUE. -/

namespace Sys2Proof.Machine

/-- DEC, EXC and EXCV of `t` are those of `s`. -/
def SameDecoded (s t : State) : Prop :=
  t.dec = s.dec ∧ t.status.exc = s.status.exc ∧ t.status.excv = s.status.excv

/-- Of the commands only a DECODE that succeeds writes DEC, EXC and EXCV (R28, R29, R37). -/
theorem Performs.sameDecoded {s u : State} {i : Instr} {code : ErrCode} (h : Performs s i code u) :
    SameDecoded s u ∨ i = .decode ∧ code = .none := by
  cases h with
  | keeps => exact .inl ⟨rfl, rfl, rfl⟩
  | setsCrc => exact .inl (by simp [SameDecoded])
  | packs => exact .inl (by simp [SameDecoded])
  | records => exact .inr ⟨rfl, rfl⟩

/-- NOP leaves CRC.VALUE (R150). -/
theorem Performs.crc_nop {s u : State} {code : ErrCode} (h : Performs s .nop code u) : u.crc = s.crc := by
  cases h with
  | keeps => rfl
  | setsCrc _ c hi hn => exact absurd rfl hi

theorem writeTarget_results (n : Width) (v : Word) (s : State) (g : Target) :
    SameDecoded s (writeTarget n v s g) ∧ (writeTarget n v s g).crc = s.crc := by
  cases g <;> exact ⟨⟨rfl, rfl, rfl⟩, rfl⟩

/-- No host access writes a result (R33, R37, R57). -/
theorem busAccess_results (a : Access) (s : State) :
    SameDecoded s (busAccess a s).2 ∧ (busAccess a s).2.crc = s.crc := by
  cases a with
  | write n off v =>
    simp only [busAccess]
    split
    · unfold hostWrite
      split
      · exact ⟨⟨rfl, rfl, rfl⟩, rfl⟩
      · exact writeTarget_results n v s (targetOf off)
    · exact ⟨⟨rfl, rfl, rfl⟩, rfl⟩
  | read n off =>
    simp only [busAccess]
    split
    · rw [readTarget_state]
      exact ⟨⟨rfl, rfl, rfl⟩, rfl⟩
    · exact ⟨⟨rfl, rfl, rfl⟩, rfl⟩

theorem hostTurn_results (s : State) : SameDecoded s (hostTurn s) ∧ (hostTurn s).crc = s.crc := by
  rcases hostTurn_cases s with h | ⟨a, p, q, tr, h⟩
  · rw [h]
    exact ⟨⟨rfl, rfl, rfl⟩, rfl⟩
  · rw [h]
    exact busAccess_results a { s with program := p }

/-- A step that is no reset turn writes results only as the completion of the command in flight. -/
theorem step_results {s t : State} (h : step s = .next t)
    (hr : ∀ ts, s.turns ≠ .reset :: ts ∧ s.turns ≠ .resetInAccess :: ts) :
    SameDecoded s t ∧ t.crc = s.crc ∨
      ∃ w i ts code u, s.cur = some w ∧ decodeCmd w = .instr i ∧ Performs { s with turns := ts } i code u ∧
        t = complete code u := by
  obtain ⟨-, ⟨w, ts, hw, -, hperf⟩ | ⟨ts, -, rfl⟩ | ⟨ts, -, -, rfl⟩ | ⟨ts, hts, -⟩ | ⟨ts, hts, -⟩⟩ := step_cases h
  · obtain ⟨code, u, hu, hcase⟩ := performWord_performs w { s with turns := ts }
    obtain rfl : complete code u = t := Host.Outcome.next.inj (hu.symm.trans hperf)
    rcases hcase with rfl | ⟨i, hi, hu⟩
    · exact .inl ⟨⟨rfl, rfl, rfl⟩, rfl⟩
    · exact .inr ⟨w, i, ts, code, u, hw, hi, hu, rfl⟩
  · exact .inl (hostTurn_results { s with turns := ts })
  · exact .inl ⟨⟨rfl, rfl, rfl⟩, rfl⟩
  · exact absurd hts (hr ts).1
  · exact absurd hts (hr ts).2

/-- Settles O58: the results change with a completion only, and of the commands by those that write them. -/
theorem onlyCommandsAndResetWriteResults : Obligations.OnlyCommandsAndResetWriteResults := by
  intro s t h hr
  rcases step_results h hr with ⟨hdecoded, hcrc⟩ | ⟨w, i, ts, code, u, hw, hi, hu, rfl⟩
  · exact ⟨fun hne => absurd hdecoded hne, fun hne => absurd hcrc hne⟩
  · refine ⟨fun hne => ?_, fun hne => ⟨w, i, hw, hi, ?_⟩⟩
    · rcases hu.sameDecoded with hsame | ⟨rfl, rfl⟩
      · exact absurd hsame hne
      · exact ⟨⟨w, hw, hi⟩, rfl, rfl⟩
    · rintro rfl
      exact hne hu.crc_nop

end Sys2Proof.Machine
end

section
/-! BERR (spec/10_state.md R27, spec/70_reset_and_hazards.md R195). -/

namespace Sys2Proof.Machine

/-- No command writes BERR (R162). -/
theorem Performs.berr {s u : State} {i : Instr} {code : ErrCode} (h : Performs s i code u) :
    u.status.berr = s.status.berr := by
  cases h with
  | keeps => rfl
  | setsCrc => simp
  | packs => simp
  | records => simp

theorem performWord_berr {s t : State} {w : Word} (h : performWord w s = .next t) :
    t.status.berr = s.status.berr := by
  obtain ⟨code, u, hw, hu⟩ := performWord_performs w s
  obtain rfl : complete code u = t := Host.Outcome.next.inj (hw.symm.trans h)
  rcases hu with rfl | ⟨i, -, hu⟩
  · rfl
  · exact hu.berr

/-- A host write to STATUS clears BERR by one; one to any other offset sets it while BUSY = 1 (R31, R195). -/
theorem hostWrite_berr (n : Width) (off : Offset) (v : Word) (s : State) :
    (hostWrite n off v s).status.berr =
      if off = Config.offStatus then s.status.berr && !v.getLsbD 3 else s.status.berr || s.busy := by
  cases hb : s.busy with
  | true =>
    rw [hostWrite_busy hb]
    split
    · rfl
    · simp
  | false =>
    rw [hostWrite_idle hb, Bool.or_false]
    split
    · next h => rw [(target_status_iff off).2 h]; rfl
    · next h =>
      have hg : targetOf off ≠ .status := mt (target_status_iff off).1 h
      cases hoff : targetOf off with
      | status => exact absurd hoff hg
      | _ => rfl

/-- The host's next line is a write that the bus allows. -/
def State.writesNext (s : State) (n : Width) (off : Offset) (v : Word) : Prop :=
  (∃ rest, s.program = .access (.write n off v) :: rest) ∧ busAllowed n off = true

theorem hostTurn_berr_write {s : State} {n : Width} {off : Offset} {v : Word} (h : s.writesNext n off v) :
    (hostTurn s).status.berr =
      if off = Config.offStatus then s.status.berr && !v.getLsbD 3 else s.status.berr || s.busy := by
  obtain ⟨⟨rest, hp⟩, ha⟩ := h
  simp only [hostTurn, hp, hostAccess, busAccess, ha, if_true]
  exact hostWrite_berr n off v { s with program := rest }

theorem busAccess_read_status (n : Width) (off : Offset) (s : State) :
    (busAccess (.read n off) s).2.status = s.status := by
  simp only [busAccess]
  split
  · rw [readTarget_state]
  · rfl

/-- Beside an allowed write no turn of the host touches BERR (R57, R168). -/
theorem hostTurn_berr_other {s : State} (h : ∀ n off v, ¬s.writesNext n off v) :
    (hostTurn s).status.berr = s.status.berr := by
  unfold hostTurn
  split
  · rfl
  · next a rest hp =>
    cases a with
    | write n off v =>
      have ha : busAllowed n off = false := Bool.eq_false_iff.2 fun ha => h n off v ⟨⟨rest, hp⟩, ha⟩
      simp [hostAccess, busAccess, ha]
    | read n off => exact congrArg Status.berr (busAccess_read_status n off { s with program := rest })
  · have hpoll := congrArg Status.berr (busAccess_read_status .w32 Config.offStatus s)
    split
    · exact hpoll
    · exact hpoll

theorem abortAccess_status (a : Access) (s : State) : (abortAccess a s).status = s.status := by
  cases a <;> rfl

theorem resetInAccessTurn_status (s : State) : (resetInAccessTurn s).status = Status.reset := by
  unfold resetInAccessTurn
  split
  · rfl
  · exact abortAccess_status _ _
  · exact abortAccess_status _ _

/-- What a step does to BERR: it leaves it, or it is a reset turn, or the host's turn with an allowed write. -/
theorem step_berr {s t : State} (h : step s = .next t) :
    t.status.berr = s.status.berr ∨
      (∃ ts, s.turns = .reset :: ts ∨ s.turns = .resetInAccess :: ts) ∧ t.status.berr = false ∨
      ∃ n off v, s.writesNext n off v ∧ ((∃ ts, s.turns = .host :: ts) ∨ s.busy = false) ∧
        t.status.berr =
          if off = Config.offStatus then s.status.berr && !v.getLsbD 3 else s.status.berr || s.busy := by
  obtain ⟨-, ⟨w, ts, -, -, hw⟩ | ⟨ts, hts, rfl⟩ | ⟨ts, -, -, rfl⟩ | ⟨ts, hts, rfl⟩ | ⟨ts, hts, rfl⟩⟩ := step_cases h
  · exact .inl (performWord_berr (s := { s with turns := ts }) hw)
  · by_cases hwrite : ∃ n off v, s.writesNext n off v
    · obtain ⟨n, off, v, hwrite⟩ := hwrite
      refine .inr (.inr ⟨n, off, v, hwrite, ?_, hostTurn_berr_write (s := { s with turns := ts }) hwrite⟩)
      exact hts.imp (fun hhost => ⟨ts, hhost⟩) (fun hfair => hfair.2.2)
    · exact .inl (hostTurn_berr_other (s := { s with turns := ts }) fun n off v hw => hwrite ⟨n, off, v, hw⟩)
  · exact .inl rfl
  · exact .inr (.inl ⟨⟨ts, .inl hts⟩, rfl⟩)
  · exact .inr (.inl ⟨⟨ts, .inr hts⟩, congrArg Status.berr (resetInAccessTurn_status _)⟩)

/-- While BUSY = 1 an allowed write to an offset other than STATUS sets BERR (R195). -/
theorem step_sets_berr {s t : State} {n : Width} {off : Offset} {v : Word} {ts : List Turn}
    (h : step s = .next t) (hts : s.turns = .host :: ts) (hb : s.busy = true) (hw : s.writesNext n off v)
    (hoff : off ≠ Config.offStatus) : t.status.berr = true := by
  have ht : step s = .next (hostTurn { s with turns := ts }) := step_turn (step_cases h).1 hts
  obtain rfl : t = hostTurn { s with turns := ts } := Host.Outcome.next.inj (h.symm.trans ht)
  rw [hostTurn_berr_write (s := { s with turns := ts }) hw, if_neg hoff]
  exact Bool.or_eq_true_iff.2 (.inr hb)

/-- Narrow accesses are allowed in BUF only (R53). -/
theorem width_of_allowed_status {n : Width} (h : busAllowed n Config.offStatus = true) : n = .w32 := by
  cases n with
  | w8 => exact absurd h (by decide)
  | w16 => exact absurd h (by decide)
  | w32 => rfl

/-- Settles O59, by what a step does to BERR. -/
theorem berrIsSetByBusyWritesOnly : Obligations.BerrIsSetByBusyWritesOnly := by
  refine fun s t h => ⟨fun hclear => ⟨fun hset => ?_, ?_⟩, fun hset hclear => ?_⟩
  · rcases step_berr h with heq | ⟨-, hreset⟩ | ⟨n, off, v, ⟨⟨rest, hp⟩, ha⟩, hturn, hberr⟩
    · exact absurd (hset.symm.trans (heq.trans hclear)) nofun
    · exact absurd (hset.symm.trans hreset) nofun
    · rw [hset, hclear, Bool.false_and, Bool.false_or] at hberr
      split at hberr
      · cases hberr
      · next hoff =>
        refine ⟨hberr.symm, n, off, v, rest, ?_⟩
        rcases hturn with ⟨ts, hts⟩ | hidle
        · exact ⟨ts, hp, hts, ha, hoff⟩
        · exact absurd (hberr.trans hidle) nofun
  · rintro ⟨hb, n, off, v, rest, ts, hp, hts, ha, hoff⟩
    exact step_sets_berr h hts hb ⟨⟨rest, hp⟩, ha⟩ hoff
  · rcases step_berr h with heq | ⟨hreset, -⟩ | ⟨n, off, v, ⟨⟨rest, hp⟩, ha⟩, -, hberr⟩
    · exact absurd (hset.symm.trans (heq.symm.trans hclear)) nofun
    · exact .inl hreset
    · rw [hset, hclear, Bool.true_and, Bool.true_or] at hberr
      split at hberr
      · next hoff =>
        obtain rfl := hoff
        obtain rfl := width_of_allowed_status ha
        exact .inr ⟨v, rest, hp, by simpa using hberr⟩
      · cases hberr

end Sys2Proof.Machine
end

section
/-! The registers as an idle block answers for them (spec/10_state.md R22 to R38). -/

namespace Sys2Proof.Machine

/-! ## The fields of the register words -/

theorem extractLsb'_setWidth_above {n : Nat} (x : BitVec n) (w len : Nat) :
    (x.setWidth w).extractLsb' n len = 0#len := by
  apply BitVec.eq_of_getLsbD_eq
  intro i hi
  simp [BitVec.getLsbD_extractLsb', BitVec.getLsbD_setWidth]

theorem crcWord_value (c : Half) : (crcWord c).extractLsb' 0 16 = c :=
  (BitVec.extractLsb'_setWidth_of_le (by decide)).trans BitVec.extractLsb'_eq_self
theorem crcWord_upper (c : Half) : (crcWord c).extractLsb' 16 16 = 0 := extractLsb'_setWidth_above c 32 16

theorem lenWord_value (l : Len) : (lenWord l).extractLsb' 0 9 = l :=
  (BitVec.extractLsb'_setWidth_of_le (by decide)).trans BitVec.extractLsb'_eq_self
theorem lenWord_upper (l : Len) : (lenWord l).extractLsb' 9 23 = 0 := extractLsb'_setWidth_above l 32 23

theorem hdrWord_addr (h : Hdr) : (hdrWord h).extractLsb' 0 8 = h.addr := BitVec.extractLsb'_append_eq_right
theorem hdrWord_func (h : Hdr) : (hdrWord h).extractLsb' 8 8 = h.func :=
  (BitVec.extractLsb'_append_eq_of_le (by decide)).trans BitVec.extractLsb'_append_eq_right
theorem hdrWord_upper (h : Hdr) : (hdrWord h).extractLsb' 16 16 = 0 :=
  (BitVec.extractLsb'_append_eq_of_le (by decide)).trans BitVec.extractLsb'_append_eq_left

theorem decWord_addr (d : Dec) : (decWord d).extractLsb' 0 8 = d.addr := BitVec.extractLsb'_append_eq_right
theorem decWord_func (d : Dec) : (decWord d).extractLsb' 8 8 = d.func :=
  (BitVec.extractLsb'_append_eq_of_le (by decide)).trans BitVec.extractLsb'_append_eq_right
theorem decWord_exccode (d : Dec) : (decWord d).extractLsb' 16 8 = d.exccode :=
  (BitVec.extractLsb'_append_eq_of_le (by decide)).trans <|
    (BitVec.extractLsb'_append_eq_of_le (by decide)).trans BitVec.extractLsb'_append_eq_right
theorem decWord_upper (d : Dec) : (decWord d).extractLsb' 24 8 = 0 :=
  (BitVec.extractLsb'_append_eq_of_le (by decide)).trans <|
    (BitVec.extractLsb'_append_eq_of_le (by decide)).trans BitVec.extractLsb'_append_eq_left

/-! ## The accesses -/

theorem busAccess_read {n : Width} {off : Offset} {g : Target} (ha : busAllowed n off = true)
    (hg : targetOf off = g) (s : State) :
    busAccess (.read n off) s = (.data (readTarget n s g).1, (readTarget n s g).2) := by
  simp only [busAccess, ha, if_true, hg]

theorem busAccess_write_idle {n : Width} {off : Offset} {g : Target} {s : State} (ha : busAllowed n off = true)
    (hg : targetOf off = g) (hb : s.busy = false) (v : Word) :
    busAccess (.write n off v) s = (.ok, writeTarget n v s g) := by
  simp only [busAccess, ha, if_true, hostWrite_idle hb, hg]

/-- A write to STATUS reaches it, busy or not (R31). -/
theorem busAccess_write_status (v : Word) (s : State) :
    busAccess (.write .w32 Config.offStatus v) s = (.ok, writeStatus v s) := by
  cases hb : s.busy with
  | true =>
    have ha : busAllowed .w32 Config.offStatus = true := rfl
    simp only [busAccess, ha, if_true, hostWrite_busy hb]
  | false => exact busAccess_write_idle rfl rfl hb v

theorem busAllowed_w32 {off : Offset} (h : off.toNat % 4 = 0) : busAllowed .w32 off = true := decide_eq_true h

/-- The offsets of R38. -/
theorem target_reserved {off : Offset} (h : 0x01C ≤ off.toNat ∧ off.toNat ≤ 0x0FF ∨ 0x200 ≤ off.toNat) :
    targetOf off = .reserved := by
  have hreg (o : Offset) (ho : o.toNat < 0x01C) : off ≠ o := by
    rintro rfl
    omega
  have hbuf : inBuf off = false := by
    rw [Bool.eq_false_iff, Ne, inBuf_iff]
    omega
  simp only [targetOf, hbuf, hreg Config.offCmd (by decide), hreg Config.offStatus (by decide),
    hreg Config.offCrc (by decide), hreg Config.offHdr (by decide), hreg Config.offPlen (by decide),
    hreg Config.offFlen (by decide), hreg Config.offDec (by decide), if_false, Bool.false_eq_true]

/-- Settles O40, register by register. -/
theorem registersReadTheirFields : Obligations.RegistersReadTheirFields := by
  intro s hb
  have hread (g : Target) {off : Offset} {r : Word × State} (ha : busAllowed .w32 off = true) (hg : targetOf off = g)
      (hr : readTarget .w32 s g = r) : busAccess (.read .w32 off) s = (.data r.1, r.2) :=
    hr ▸ busAccess_read ha hg s
  have hidle : ¬s.busy = true := Bool.eq_false_iff.1 hb
  refine ⟨hread .cmd rfl rfl rfl, ⟨_, hread .status rfl rfl (if_neg hidle), ?_⟩,
    ⟨_, hread .crc rfl rfl (if_neg hidle), ?_⟩, ⟨_, hread .hdr rfl rfl rfl, ?_⟩,
    ⟨_, hread .plen rfl rfl (if_neg hidle), ?_⟩, ⟨_, hread .flen rfl rfl (if_neg hidle), ?_⟩,
    ⟨_, hread .dec rfl rfl (if_neg hidle), ?_⟩,
    fun off hal hoff => hread .reserved (busAllowed_w32 hal) (target_reserved hoff) rfl⟩
  · exact ⟨(statusWordWith_bit0 ..).trans hb, statusWordWith_bit1 .., statusWordWith_bit2 .., statusWordWith_bit3 ..,
      statusWordWith_bit4 .., statusWordWith_bit5 .., statusWordWith_reserved_low .., statusWordWith_errcode ..,
      statusWordWith_reserved_high ..⟩
  · exact ⟨crcWord_value _, crcWord_upper _⟩
  · exact ⟨hdrWord_addr _, hdrWord_func _, hdrWord_upper _⟩
  · exact ⟨lenWord_value _, lenWord_upper _⟩
  · exact ⟨lenWord_value _, lenWord_upper _⟩
  · exact ⟨decWord_addr _, decWord_func _, decWord_exccode _, decWord_upper _⟩

/-- The register or reserved offset ignores writes (R33, R37, R38). -/
theorem target_ignores_writes {off : Offset} (hal : off.toNat % 4 = 0)
    (h : off.toNat = 0x008 ∨ 0x018 ≤ off.toNat ∧ off.toNat ≤ 0x0FF ∨ 0x200 ≤ off.toNat) :
    targetOf off = .crc ∨ targetOf off = .dec ∨ targetOf off = .reserved := by
  by_cases hcrc : off.toNat = 0x008
  · obtain rfl : off = Config.offCrc := BitVec.eq_of_toNat_eq hcrc
    exact .inl rfl
  · by_cases hdec : off.toNat = 0x018
    · obtain rfl : off = Config.offDec := BitVec.eq_of_toNat_eq hdec
      exact .inr (.inl rfl)
    · exact .inr (.inr (target_reserved (by omega)))

/-- Settles O41, register by register. -/
theorem registersTakeTheirWrites : Obligations.RegistersTakeTheirWrites := by
  refine fun s v hb => ⟨busAccess_write_idle rfl rfl hb v, busAccess_write_idle rfl rfl hb v,
    busAccess_write_idle rfl rfl hb v, fun off hal hoff => ?_⟩
  have ha : busAllowed .w32 off = true := busAllowed_w32 hal
  rcases target_ignores_writes hal hoff with hg | hg | hg
  · exact busAccess_write_idle ha hg hb v
  · exact busAccess_write_idle ha hg hb v
  · exact busAccess_write_idle ha hg hb v

end Sys2Proof.Machine
end

section
/-! The host's turn with an access as its next line (spec/20_memory.md R52). -/

namespace Sys2Proof.Machine

/-- The step answers the access and enters the response (log 6). -/
theorem step_hostMoves {s t : State} {a : Access} {r : Response} {rest : List HostLine} {ts : List Turn}
    (h : s.hostMoves a rest ts)
    (ha : busAccess a { s with program := rest, turns := ts } = (r, { t with program := rest, turns := ts })) :
    step s = .next (t.answered a r rest ts) := by
  obtain ⟨hl, hp, hts⟩ := h
  rw [step_turn hl hts]
  simp only [takeTurn, hostTurn, hp, hostAccess, ha]
  rfl

/-- The reserved bits of STATUS read 0, busy or not (R31). -/
theorem read_status_reserved {s : State} {x : Word} (h : (busAccess (.read .w32 Config.offStatus) s).1 = .data x) :
    x.extractLsb' 6 2 = 0 ∧ x.extractLsb' 12 20 = 0 := by
  have hword : ∃ e c, x = statusWordWith e c s := by
    rw [busAccess_read (g := .status) rfl rfl s] at h
    obtain rfl := Response.data.inj h
    simp only [readTarget]
    split
    · exact ⟨_, _, rfl⟩
    · exact ⟨_, _, rfl⟩
  obtain ⟨e, c, rfl⟩ := hword
  exact ⟨statusWordWith_reserved_low e c s, statusWordWith_reserved_high e c s⟩

/-- W1C of one bit, as R31 writes it. -/
theorem and_not_eq_ite (b c : Bool) : (b && !c) = if c then false else b := by
  cases c
  · exact Bool.and_true b
  · exact Bool.and_false b

/-- Settles O36: the write reaches STATUS in every state, and the reserved bits are constant. -/
theorem statusWriteClearsByOne : Obligations.StatusWriteClearsByOne := by
  intro s v rest ts h
  refine ⟨step_hostMoves h ?_, fun x => read_status_reserved⟩
  rw [← and_not_eq_ite, ← and_not_eq_ite, ← and_not_eq_ite]
  exact busAccess_write_status v _

/-- A read of BUF goes through `readBytes`, busy or not, and so flags the first unwritten byte (R167). -/
theorem busAccess_read_unwritten {s : State} {n : Width} {i j : Nat} (hi : i < 256)
    (ha : busAllowed n (BitVec.ofNat 12 (0x100 + i)) = true) (hflag : s.unwrittenRead = none)
    (hj : s.firstUnwritten i n.bytes j) :
    ∃ (v : Word) (k : Nat), busAccess (.read n (BitVec.ofNat 12 (0x100 + i))) s =
      (.data v, { s with unwrittenRead := some j, draws := k }) := by
  refine ⟨wordOf (readBuf i n.bytes s).1, (readBuf i n.bytes s).2.draws, ?_⟩
  rw [busAccess_read ha (target_buf hi), ← readBytes_flag_first hj hflag]
  exact congrArg (Prod.mk _) (readBuf_state i n.bytes s)

/-- Settles O39: the step answers the read of the unwritten byte. -/
theorem hostReadFlagsTheFirstUnwrittenByte : Obligations.HostReadFlagsTheFirstUnwrittenByte := by
  intro s n i j rest ts hi ha hflag hj h
  obtain ⟨v, k, hread⟩ := busAccess_read_unwritten (s := { s with program := rest, turns := ts }) hi ha hflag hj
  exact ⟨v, k, step_hostMoves h hread⟩

end Sys2Proof.Machine
end

section
/-! The fault flag of a command (spec/60_exceptions.md R167). -/

namespace Sys2Proof.Machine

/-- ENCODE writes the header before it reads, so its first unwritten byte is the payload's (R122). -/
theorem firstUnwritten_putHeader {s : State} {n j : Nat} (h : s.firstUnwritten 2 n j) :
    (putHeader s).firstUnwritten 0 (n + 2) j := by
  obtain ⟨hle, hlt, hnone, hbelow⟩ := h
  refine ⟨Nat.zero_le j, by omega, ?_, fun k _ hk => ?_⟩
  · rw [putHeader_buf, read_write_other _ _ (by omega), read_write_other _ _ (by omega)]
    exact hnone
  · rw [putHeader_buf, read_write, read_write]
    split
    · exact nofun
    · split
      · exact nofun
      · exact hbelow k (by omega) hk

/-- The two CRC bytes of ENCODE stand above the header and the payload (R122). -/
theorem read_below_crc (m : Memory) {j p : Nat} (lo hi : Byte) (hj : j < 2 + p) :
    ((m.write (2 + p) lo).write (3 + p) hi).read j = m.read j := by
  rw [read_write_other _ _ (by omega), read_write_other _ _ (by omega)]

/-- Settles O20: each command reads its bytes through `readBytes`, which flags the first unwritten byte. -/
theorem commandsFlagTheFirstUnwrittenByte : Obligations.CommandsFlagTheFirstUnwrittenByte := by
  refine ⟨fun s j hs hmax hj => ?_, fun s j hs hmin hmax hj => ?_, fun s j hs hmax hj => ?_⟩
  · exact ⟨_, execCrcBuf_read hmax, readBytes_flag_first hj hs, rfl, readBytes_buf _ _ _⟩
  · have hread := execDecode_read (s := s) hmin hmax
    have hflag := readBytes_flag_first hj hs
    split at hread
    · exact ⟨_, hread, hflag, readBytes_buf _ _ _⟩
    · exact ⟨_, hread, hflag, readBytes_buf _ _ _⟩
  · refine ⟨_, execEncode_pack hmax, readBytes_flag_first (firstUnwritten_putHeader hj) hs, rfl, ?_, ?_, ?_⟩
    · exact (BitVec.toNat_ofNat ..).trans (Nat.mod_eq_of_lt (by simp only [plenOf]; omega))
    · exact (read_below_crc _ _ _ (by omega)).trans
        ((read_write_other _ _ (by decide)).trans (read_write_same _ _ _))
    · exact (read_below_crc _ _ _ (by omega)).trans (read_write_same _ _ _)

end Sys2Proof.Machine
end

section
/-! The lanes of BUF on the bus (spec/20_memory.md R54, R55). -/

namespace Sys2Proof.Machine

/-! ## Words and their bytes -/

/-- Lane 0 of the sum of R54 is its first byte. -/
theorem byteOf_shiftIn_zero (b : Byte) (w : Word) : byteOf (b.setWidth 32 ||| w <<< 8) 0 = b := by
  apply BitVec.eq_of_getLsbD_eq
  intro j hj
  have hbit : j < 32 := by omega
  simp [byteOf, hj, hbit]

/-- Lane `k + 1` of the sum of R54 is lane `k` of the rest. -/
theorem byteOf_shiftIn_succ (b : Byte) (w : Word) {k : Nat} (hk : k + 1 < 4) :
    byteOf (b.setWidth 32 ||| w <<< 8) (k + 1) = byteOf w k := by
  apply BitVec.eq_of_getLsbD_eq
  intro j hj
  have hlane : 8 * (k + 1) + j = 8 * k + j + 8 := by omega
  have hbit : 8 * k + j + 8 < 32 := by omega
  simp [byteOf, hj, hlane, hbit, -BitVec.getLsbD_eq_getElem]

/-- Lane `k` of the word read is byte `k`, and 0 above the bytes read (R54; log 15). -/
theorem byteOf_wordOf (bs : List Byte) {k : Nat} (hk : k < 4) : byteOf (wordOf bs) k = bs.getD k 0 := by
  induction bs generalizing k with
  | nil => exact BitVec.extractLsb'_zero
  | cons b bs ih =>
    cases k with
    | zero => exact byteOf_shiftIn_zero b (wordOf bs)
    | succ k => exact (byteOf_shiftIn_succ b (wordOf bs) hk).trans (ih (Nat.lt_of_succ_lt hk))

/-- A byte of the range that a write covers reads as its lane of the word (R55). -/
theorem read_writeLanes_lane (m : Memory) (i : Nat) (v : Word) {n k : Nat} (hk : k < n) :
    (m.writeBytes i (bytesOf v n)).read (i + k) = some (byteOf v k) := by
  rw [read_writeBytes, length_bytesOf, if_pos (by omega), Nat.add_sub_cancel_left, bytesOf, List.getElem?_map,
    List.getElem?_range hk, Option.map_some]

/-- A byte outside the range that a write covers reads as before (R55). -/
theorem read_writeLanes_other (m : Memory) (v : Word) {i j n : Nat} (hj : j < i ∨ i + n ≤ j) :
    (m.writeBytes i (bytesOf v n)).read j = m.read j := by
  rw [read_writeBytes, length_bytesOf, if_neg (by omega)]

/-! ## The accesses -/

/-- An allowed write while a command is in flight, to any offset but STATUS, only sets BERR (R195; log 8). -/
theorem busAccess_write_busy {n : Width} {off : Offset} {s : State} (ha : busAllowed n off = true)
    (hoff : off ≠ Config.offStatus) (hb : s.busy = true) (v : Word) :
    busAccess (.write n off v) s = (.ok, setBerr s) := by
  simp only [busAccess, ha, if_true, hostWrite_busy hb, hoff, if_false]

/-- An offset of BUF is not STATUS (R22). -/
theorem bufOff_ne_status {i : Nat} (hi : i < 256) : BitVec.ofNat 12 (0x100 + i) ≠ Config.offStatus := by
  rw [Ne, ← target_status_iff, target_buf hi]
  exact nofun

/-- An idle read of written bytes returns their word and changes nothing (R54). -/
theorem busAccess_read_written {s : State} {n : Width} {i : Nat} {bs : List Byte} (hi : i < 256)
    (ha : busAllowed n (BitVec.ofNat 12 (0x100 + i)) = true) (hb : s.busy = false) (hlen : bs.length = n.bytes)
    (hbs : s.holds i bs) : busAccess (.read n (BitVec.ofNat 12 (0x100 + i))) s = (.data (wordOf bs), s) := by
  have hread : readBuf i n.bytes s = (bs, s) := by
    rw [← hlen, readBuf, if_neg (Bool.eq_false_iff.1 hb), readBytes_written hbs]
  rw [busAccess_read ha (target_buf hi)]
  simp only [readTarget, hread]

/-- All that a read can change, allowed or refused: the number of draws and the fault flag (R57, R168). -/
theorem busAccess_read_state (n : Width) (off : Offset) (s : State) :
    ∃ (k : Nat) (u : Option Nat), (busAccess (.read n off) s).2 = { s with draws := k, unwrittenRead := u } := by
  cases ha : busAllowed n off with
  | true => exact ⟨_, _, (congrArg Prod.snd (busAccess_read ha rfl s)).trans (readTarget_state n s _)⟩
  | false => exact ⟨s.draws, s.unwrittenRead, by simp only [busAccess, ha, if_false, Bool.false_eq_true]⟩

/-- Settles O37: the memory after the write is `writeBytes` of the word's lanes; a busy write only sets BERR. -/
theorem bufWriteStoresItsLanes : Obligations.BufWriteStoresItsLanes := by
  intro s n i v rest ts hi ha h
  refine ⟨fun hb => ⟨s.buf.writeBytes i (bytesOf v n.bytes), step_hostMoves h ?_,
    fun _ => read_writeLanes_lane s.buf i v, fun _ => read_writeLanes_other s.buf v⟩, fun hb => step_hostMoves h ?_⟩
  · exact busAccess_write_idle (s := { s with program := rest, turns := ts }) ha (target_buf hi) hb v
  · exact busAccess_write_busy (s := { s with program := rest, turns := ts }) ha (bufOff_ne_status hi) hb v

/-- Settles O38: the word read is `wordOf` of the bytes. -/
theorem bufReadReturnsItsLanes : Obligations.BufReadReturnsItsLanes := by
  intro s n i bs rest ts hi ha hb hlen hbs h
  exact ⟨wordOf bs, step_hostMoves h (busAccess_read_written hi ha hb hlen hbs), fun _ => byteOf_wordOf bs⟩

/-- Settles O43: no read changes more than the draws and the fault flag. -/
theorem hostReadsHaveNoSideEffect : Obligations.HostReadsHaveNoSideEffect := by
  intro s n off rest ts h
  obtain ⟨k, u, hread⟩ := busAccess_read_state n off { s with program := rest, turns := ts }
  exact ⟨_, k, u, step_hostMoves h (Prod.ext rfl hread)⟩

end Sys2Proof.Machine
end

section
/-! The decoder and the encoder by the rows of the opcode table (spec/30_encoding.md R74 and R75). -/

namespace Sys2Proof

open Laws.OwnRow (rowOf)

/-! ## Fields and words (R70) -/

theorem CmdFields.ofWord_word (f : CmdFields) : CmdFields.ofWord f.word = f := by
  have hop : f.word.extractLsb' 0 4 = f.op := BitVec.extractLsb'_append_eq_right
  have hrsv0 : f.word.extractLsb' 4 4 = f.rsv0 :=
    (BitVec.extractLsb'_append_eq_of_le (by decide)).trans BitVec.extractLsb'_append_eq_right
  have himm8 : f.word.extractLsb' 8 8 = f.imm8 :=
    (BitVec.extractLsb'_append_eq_of_le (by decide)).trans
      ((BitVec.extractLsb'_append_eq_of_le (by decide)).trans BitVec.extractLsb'_append_eq_right)
  have hrsv1 : f.word.extractLsb' 16 16 = f.rsv1 :=
    (BitVec.extractLsb'_append_eq_of_le (by decide)).trans
      ((BitVec.extractLsb'_append_eq_of_le (by decide)).trans BitVec.extractLsb'_append_eq_left)
  rw [CmdFields.ofWord, hop, hrsv0, himm8, hrsv1]

theorem CmdFields.word_ofWord (w : Word) : (CmdFields.ofWord w).word = w := by
  simp only [CmdFields.word, CmdFields.ofWord]
  rw [BitVec.extractLsb'_append_extractLsb'_eq_extractLsb', BitVec.extractLsb'_append_extractLsb'_eq_extractLsb',
    BitVec.extractLsb'_append_extractLsb'_eq_extractLsb']
  · exact BitVec.extractLsb'_eq_self
  all_goals rfl

/-- A word is a command's word exactly when its fields are the command's fields. -/
theorem eq_encode_iff (w : Word) (i : Instr) : w = encode i ↔ CmdFields.ofWord w = i.fields := by
  constructor
  · rintro rfl
    exact CmdFields.ofWord_word i.fields
  · intro h
    rw [encode, ← h, CmdFields.word_ofWord]

@[simp] theorem imm8Of_encode_crcFeed (b : Byte) : imm8Of (encode (.crcFeed b)) = b :=
  congrArg CmdFields.imm8 (CmdFields.ofWord_word (Instr.crcFeed b).fields)

/-! ## Rows (R74) -/

theorem selects_iff (r : OpcodeRow) (w : Word) : r.selects w = true ↔ w &&& r.mask = r.pattern := beq_iff_eq

/-- A row whose mask keeps every bit is selected by its match word alone. -/
theorem eq_pattern_of_selects {r : OpcodeRow} (hm : r.mask = BitVec.allOnes 32) {w : Word} (h : r.selects w = true) :
    w = r.pattern := by
  rw [← (selects_iff r w).1 h, hm, BitVec.and_allOnes]

/-- A word that selects the row of CRC_FEED spells CRC_FEED of its own IMM8: the mask leaves out IMM8 only (R72). -/
theorem eq_encode_crcFeed_of_selects {w : Word} (h : rowCrcFeed.selects w = true) :
    w = encode (.crcFeed (imm8Of w)) := by
  have field (start len : Nat) (hm : (0xFFFF00FF#32).extractLsb' start len = BitVec.allOnes len) :
      w.extractLsb' start len = (0x00000002#32).extractLsb' start len := by
    have hmask : w &&& 0xFFFF00FF#32 = 0x00000002#32 := (selects_iff rowCrcFeed w).1 h
    rw [← hmask, BitVec.extractLsb'_and, hm, BitVec.and_allOnes]
  rw [eq_encode_iff, CmdFields.ofWord, field 16 16 rfl, field 4 4 rfl, field 0 4 rfl]
  rfl

/-- Each command's word selects its own row of the table and no other. -/
theorem ownRow (i : Instr) : opcodeRows.filter (fun r => r.selects (encode i)) = [rowOf i] := by
  cases i with
  | nop => exact Laws.OwnRow.nop
  | crcInit => exact Laws.OwnRow.crcInit
  | crcFeed b => exact Laws.OwnRow.crcFeed b
  | crcBuf => exact Laws.OwnRow.crcBuf
  | encode => exact Laws.OwnRow.encode
  | decode => exact Laws.OwnRow.decode

theorem selects_encode_iff {r : OpcodeRow} (hr : r ∈ opcodeRows) (i : Instr) :
    r.selects (encode i) = true ↔ r = rowOf i := by
  have h : r ∈ opcodeRows.filter (fun r => r.selects (encode i)) ↔ r ∈ [rowOf i] := by rw [ownRow]
  simpa [hr] using h

theorem rowOf_mem (i : Instr) : rowOf i ∈ opcodeRows := by
  have h : rowOf i ∈ opcodeRows.filter (fun r => r.selects (encode i)) := by
    rw [ownRow]
    exact List.mem_singleton_self _
  exact (List.mem_filter.1 h).1

/-- Only the word of a command selects a row. -/
theorem exists_encode_of_selects {r : OpcodeRow} (hr : r ∈ opcodeRows) {w : Word} (h : r.selects w = true) :
    ∃ i, w = encode i := by
  simp only [opcodeRows, List.mem_cons, List.not_mem_nil, or_false] at hr
  obtain rfl | rfl | rfl | rfl | rfl | rfl := hr
  · exact ⟨.nop, eq_pattern_of_selects rfl h⟩
  · exact ⟨.crcInit, eq_pattern_of_selects rfl h⟩
  · exact ⟨.crcFeed (imm8Of w), eq_encode_crcFeed_of_selects h⟩
  · exact ⟨.crcBuf, eq_pattern_of_selects rfl h⟩
  · exact ⟨.encode, eq_pattern_of_selects rfl h⟩
  · exact ⟨.decode, eq_pattern_of_selects rfl h⟩

/-- A word selects a row exactly when it is the word of a command. -/
theorem exists_selects_iff (w : Word) : (∃ r ∈ opcodeRows, r.selects w = true) ↔ ∃ i, w = encode i := by
  constructor
  · rintro ⟨r, hr, h⟩
    exact exists_encode_of_selects hr h
  · rintro ⟨i, rfl⟩
    exact ⟨rowOf i, rowOf_mem i, (selects_encode_iff (rowOf_mem i) i).2 rfl⟩

/-! ## The decoder (R75) -/

@[simp] theorem decodeCmd_encode (i : Instr) : decodeCmd (encode i) = .instr i := by
  cases i with
  | crcFeed b =>
    have hrow {r : OpcodeRow} (hr : r ∈ opcodeRows) := selects_encode_iff hr (.crcFeed b)
    have hnop : ¬rowNop.selects (encode (.crcFeed b)) = true :=
      mt (hrow (by decide)).1 (show rowNop ≠ rowCrcFeed by decide)
    have hinit : ¬rowCrcInit.selects (encode (.crcFeed b)) = true :=
      mt (hrow (by decide)).1 (show rowCrcInit ≠ rowCrcFeed by decide)
    have hfeed : rowCrcFeed.selects (encode (.crcFeed b)) = true := (hrow (by decide)).2 rfl
    rw [decodeCmd, if_neg hnop, if_neg hinit, if_pos hfeed, imm8Of_encode_crcFeed]
  | nop => decide
  | crcInit => decide
  | crcBuf => decide
  | encode => decide
  | decode => decide

/-- A word that selects no row decodes to ILLEGAL. -/
theorem decodeCmd_eq_illegal {w : Word} (h : ∀ r ∈ opcodeRows, r.selects w = false) : decodeCmd w = .illegal w := by
  simp only [opcodeRows, List.forall_mem_cons] at h
  obtain ⟨h0, h1, h2, h3, h4, h5, -⟩ := h
  simp [decodeCmd, h0, h1, h2, h3, h4, h5]

/-- What decoding answers: the command whose word it is, or ILLEGAL with the word itself where it is no command's. -/
theorem decodeCmd_cases (w : Word) :
    (∃ i, w = encode i ∧ decodeCmd w = .instr i) ∨ ((∀ i, w ≠ encode i) ∧ decodeCmd w = .illegal w) := by
  by_cases h : ∃ i, w = encode i
  · obtain ⟨i, rfl⟩ := h
    exact .inl ⟨i, rfl, decodeCmd_encode i⟩
  · refine .inr ⟨not_exists.1 h, decodeCmd_eq_illegal fun r hr => ?_⟩
    exact Bool.eq_false_iff.2 fun hsel => h (exists_encode_of_selects hr hsel)

theorem decodeCmd_eq_instr_iff (w : Word) (i : Instr) : decodeCmd w = .instr i ↔ w = encode i := by
  constructor
  · intro h
    obtain ⟨j, hw, hj⟩ | ⟨-, hill⟩ := decodeCmd_cases w
    · rw [hw, Cmd.instr.inj (h.symm.trans hj)]
    · exact Cmd.noConfusion (h.symm.trans hill)
  · rintro rfl
    exact decodeCmd_encode i

theorem decodeCmd_eq_illegal_iff (w v : Word) : decodeCmd w = .illegal v ↔ v = w ∧ ∀ i, w ≠ encode i := by
  obtain ⟨i, hw, hi⟩ | ⟨hne, hill⟩ := decodeCmd_cases w
  · exact iff_of_false (by rw [hi]; exact nofun) fun h => h.2 i hw
  · rw [hill, Cmd.illegal.injEq, eq_comm]
    exact (and_iff_left hne).symm

/-- A word is legal exactly when it is the word of a command. -/
theorem exists_instr_iff (w : Word) : (∃ i, decodeCmd w = .instr i) ↔ ∃ i, w = encode i :=
  exists_congr (decodeCmd_eq_instr_iff w)

/-- Settles O2: the decoder answers a command exactly on that command's word. -/
theorem decodeAndEncodeAgree : Obligations.DecodeAndEncodeAgree :=
  fun i w => decodeCmd_eq_instr_iff w i

theorem encode_injective : Function.Injective encode := fun i j h =>
  Cmd.instr.inj <| by rw [← decodeCmd_encode i, h, decodeCmd_encode]

/-- A word is legal exactly when it selects a row of the table (R74). -/
theorem exists_instr_iff_selects (w : Word) :
    (∃ i, decodeCmd w = .instr i) ↔ ∃ r ∈ opcodeRows, r.selects w = true := by
  rw [exists_instr_iff, exists_selects_iff]

/-- No word selects two rows: it is a command's word, which selects that command's row only. -/
theorem selects_unique {w : Word} {r q : OpcodeRow} (hr : r ∈ opcodeRows) (hq : q ∈ opcodeRows)
    (hrw : r.selects w = true) (hqw : q.selects w = true) : r = q := by
  obtain ⟨i, rfl⟩ := exists_encode_of_selects hr hrw
  rw [(selects_encode_iff hr i).1 hrw, (selects_encode_iff hq i).1 hqw]

/-- Settles O4: a row is selected by command words only, and each of them selects its own row. -/
theorem opcodeRowsAreDisjoint : Obligations.OpcodeRowsAreDisjoint :=
  ⟨rfl, by decide, selects_iff, fun _ _ _ => selects_unique, exists_instr_iff_selects⟩

end Sys2Proof
end

section
/-! The decoder line by line, and the number of the legal words (spec/30_encoding.md R75). -/

namespace Sys2Proof

/-! ## The commands, one by one -/

/-- The commands whose word has no operand. -/
def plainInstrs : List Instr := [.nop, .crcInit, .crcBuf, .encode, .decode]

/-- CRC_FEED of each byte. -/
def feedInstrs : List Instr := (List.finRange 256).map fun n => .crcFeed (BitVec.ofFin n)

/-- Every command with every operand. -/
def allInstrs : List Instr := plainInstrs ++ feedInstrs

theorem mem_feedInstrs (b : Byte) : .crcFeed b ∈ feedInstrs :=
  List.mem_map.2 ⟨b.toFin, List.mem_finRange _, rfl⟩

theorem mem_allInstrs (i : Instr) : i ∈ allInstrs := by
  cases i with
  | crcFeed b => exact List.mem_append_right _ (mem_feedInstrs b)
  | nop => exact List.mem_append_left _ (by decide)
  | crcInit => exact List.mem_append_left _ (by decide)
  | crcBuf => exact List.mem_append_left _ (by decide)
  | encode => exact List.mem_append_left _ (by decide)
  | decode => exact List.mem_append_left _ (by decide)

theorem nodup_feedInstrs : feedInstrs.Nodup :=
  (List.nodup_finRange 256).map fun _ _ h => BitVec.ofFin.inj (Instr.crcFeed.inj h)

theorem nodup_allInstrs : allInstrs.Nodup := by
  refine List.Nodup.append (by decide) nodup_feedInstrs fun i hplain hfeed => ?_
  obtain ⟨n, -, rfl⟩ := List.mem_map.1 hfeed
  simp [plainInstrs] at hplain

theorem length_allInstrs : allInstrs.length = 261 := by
  simp [allInstrs, plainInstrs, feedInstrs]

/-- The legal words: the word of each command. -/
def legalWords : List Word := allInstrs.map encode

theorem mem_legalWords (w : Word) : w ∈ legalWords ↔ ∃ i, w = encode i := by
  simp only [legalWords, List.mem_map, mem_allInstrs, true_and, eq_comm]

theorem nodup_legalWords : legalWords.Nodup := nodup_allInstrs.map encode_injective

/-- A word that is neither one of the five fixed words nor in the row of CRC_FEED is no command's word. -/
theorem ne_encode_of_unmatched {w : Word}
    (hfixed : w ∉ [0x00000000#32, 0x00000001#32, 0x00000003#32, 0x00000004#32, 0x00000005#32])
    (hfeed : w &&& 0xFFFF00FF#32 ≠ 0x00000002#32) (i : Instr) : w ≠ encode i := by
  rintro rfl
  cases i with
  | crcFeed b =>
    have hsel : rowCrcFeed.selects (encode (.crcFeed b)) = true := (selects_encode_iff (by decide) _).2 rfl
    exact hfeed ((selects_iff _ _).1 hsel)
  | nop => exact hfixed (by decide)
  | crcInit => exact hfixed (by decide)
  | crcBuf => exact hfixed (by decide)
  | encode => exact hfixed (by decide)
  | decode => exact hfixed (by decide)

theorem decodeCmd_crcFeed {w : Word} (h : w &&& 0xFFFF00FF#32 = 0x00000002#32) :
    decodeCmd w = .instr (.crcFeed (imm8Of w)) :=
  (decodeCmd_eq_instr_iff w _).2 (eq_encode_crcFeed_of_selects ((selects_iff rowCrcFeed w).2 h))

/-- A word that is no command's decodes to ILLEGAL with the word itself (R76). -/
theorem decodeCmd_illegal {w : Word} (h : ∀ i, w ≠ encode i) : decodeCmd w = .illegal w :=
  (decodeCmd_eq_illegal_iff w w).2 ⟨rfl, h⟩

/-- Settles O3: the legal words are the words of the 261 commands, which encoding keeps apart. -/
theorem decoderIsTotalWith261LegalWords : Obligations.DecoderIsTotalWith261LegalWords := by
  refine ⟨decodeCmd_encode .nop, decodeCmd_encode .crcInit, fun w => decodeCmd_crcFeed, decodeCmd_encode .crcBuf,
    decodeCmd_encode .encode, decodeCmd_encode .decode,
    fun w hfixed hfeed => decodeCmd_illegal (ne_encode_of_unmatched hfixed hfeed),
    legalWords, nodup_legalWords, (List.length_map _).trans length_allInstrs, fun w => ?_, fun w hw => ?_⟩
  · rw [mem_legalWords, exists_instr_iff]
  · exact decodeCmd_illegal (not_exists.1 (mt (mem_legalWords w).2 hw))

/-- Settles O1: the words evaluate. -/
theorem sampleWordsDecode : Obligations.SampleWordsDecode := by
  unfold Obligations.SampleWordsDecode
  decide

end Sys2Proof
end

section
/-! The legal words by their fields (spec/30_encoding.md R71 and R73). -/

namespace Sys2Proof

/-- What the check on the fields asks, rule by rule (R71, R73). -/
theorem CmdFields.wellFormed_iff (f : CmdFields) :
    f.wellFormed = true ↔ f.op.toNat ≤ 5 ∧ f.rsv1 = 0 ∧ f.rsv0 = 0 ∧ (f.op = 2 ∨ f.imm8 = 0) := by
  simp only [CmdFields.wellFormed, CmdFields.opKnown, CmdFields.rsv1Zero, CmdFields.rsv0Zero, CmdFields.imm8Fits,
    Bool.and_eq_true, Bool.or_eq_true, decide_eq_true_eq, beq_iff_eq, and_assoc]

theorem Instr.fields_wellFormed (i : Instr) : i.fields.wellFormed = true := by
  cases i <;> rfl

/-- The commands are all that the check on the fields accepts: it leaves IMM8 free for CRC_FEED only. -/
theorem CmdFields.eq_fields_of_wellFormed {f : CmdFields} (h : f.wellFormed = true) : ∃ i : Instr, f = i.fields := by
  obtain ⟨rsv1, imm8, rsv0, op⟩ := f
  obtain ⟨hop, hrsv1, hrsv0, himm8⟩ := (CmdFields.wellFormed_iff _).1 h
  simp only at hop hrsv1 hrsv0 himm8
  subst hrsv1 hrsv0
  by_cases hfeed : op = 2
  · subst hfeed
    exact ⟨.crcFeed imm8, rfl⟩
  obtain rfl := himm8.resolve_left hfeed
  have hcases : op = 0 ∨ op = 1 ∨ op = 3 ∨ op = 4 ∨ op = 5 := by bv_omega
  obtain rfl | rfl | rfl | rfl | rfl := hcases
  · exact ⟨.nop, rfl⟩
  · exact ⟨.crcInit, rfl⟩
  · exact ⟨.crcBuf, rfl⟩
  · exact ⟨.encode, rfl⟩
  · exact ⟨.decode, rfl⟩

/-- The check on the fields accepts the words of the commands. -/
theorem wellFormed_ofWord_iff (w : Word) : (CmdFields.ofWord w).wellFormed = true ↔ ∃ i, w = encode i := by
  simp only [eq_encode_iff]
  constructor
  · exact CmdFields.eq_fields_of_wellFormed
  · rintro ⟨i, hi⟩
    rw [hi, Instr.fields_wellFormed]

/-- Settles O5: the words of the commands are the words of well-formed fields. -/
theorem illegalWordsAreTheIllFormedOnes : Obligations.IllegalWordsAreTheIllFormedOnes := by
  intro w
  refine ⟨?_, by rw [wellFormed_ofWord_iff, exists_instr_iff]⟩
  calc decodeCmd w = .illegal w
    _ ↔ ¬∃ i, w = encode i := by rw [decodeCmd_eq_illegal_iff, not_exists, and_iff_right rfl]
    _ ↔ ¬(CmdFields.ofWord w).wellFormed = true := by rw [wellFormed_ofWord_iff]
    _ ↔ _ := by rw [CmdFields.wellFormed_iff]; rfl

end Sys2Proof
end

section
/-! The assembler's mnemonics (spec/30_encoding.md R80). -/

namespace Sys2Proof.Machine

/-- The word of CRC_FEED as R80 writes it, evaluated for each of the 256 operand bytes. -/
theorem encode_crcFeed : ∀ b : Byte, encode (.crcFeed b) = 0x00000002#32 ||| b.setWidth 32 <<< 8 := by
  decide

/-- An operand of `crc.feed` in range is put in bits 15:8. -/
theorem assemble_crcFeed {b : Nat} (h : b < 256) :
    assemble (.crcFeed b) = some (0x00000002#32 ||| BitVec.ofNat 32 b <<< 8) := by
  rw [assemble, AsmLine.wellFormed, if_pos (decide_eq_true h)]

/-- An operand of `crc.feed` in range spells the word of CRC_FEED of that byte. -/
theorem assemble_crcFeed_encode {b : Nat} (h : b < 256) :
    assemble (.crcFeed b) = some (encode (.crcFeed (BitVec.ofNat 8 b))) := by
  have hb : (BitVec.ofNat 8 b).setWidth 32 = BitVec.ofNat 32 b := by bv_omega
  rw [assemble_crcFeed h, encode_crcFeed, hb]

/-- An operand of `crc.feed` out of range is an assembly error. -/
theorem assemble_crcFeed_error {b : Nat} (h : 256 ≤ b) : assemble (.crcFeed b) = none := by
  rw [assemble, AsmLine.wellFormed, if_neg (by simpa using h)]

theorem assemble_cmd (w : Word) : assemble (.cmd w.toNat) = some w := by
  rw [assemble, AsmLine.wellFormed, if_pos (decide_eq_true w.isLt), BitVec.ofNat_toNat, BitVec.setWidth_eq]

/-- A line that is no `.cmd` line spells the word of a command. -/
theorem cmd_or_encode_of_assemble {l : AsmLine} {w : Word} (h : assemble l = some w) :
    (∃ n, l = .cmd n) ∨ ∃ i, w = encode i := by
  cases l with
  | cmd n => exact .inl ⟨n, rfl⟩
  | crcFeed b =>
    rcases Nat.lt_or_ge b 256 with hb | hb
    · exact .inr ⟨_, Option.some.inj (h.symm.trans (assemble_crcFeed_encode hb))⟩
    · exact absurd (h.symm.trans (assemble_crcFeed_error hb)) nofun
  | nop => exact .inr ⟨.nop, (Option.some.inj h).symm⟩
  | crcInit => exact .inr ⟨.crcInit, (Option.some.inj h).symm⟩
  | crcBuf => exact .inr ⟨.crcBuf, (Option.some.inj h).symm⟩
  | frameEnc => exact .inr ⟨.encode, (Option.some.inj h).symm⟩
  | frameDec => exact .inr ⟨.decode, (Option.some.inj h).symm⟩

/-- Only a `.cmd` line spells an illegal word: the others spell words of commands. -/
theorem cmd_of_illegal {l : AsmLine} {w v : Word} (h : assemble l = some w) (hw : decodeCmd w = .illegal v) :
    ∃ n, l = .cmd n :=
  (cmd_or_encode_of_assemble h).resolve_right (not_exists.2 ((decodeCmd_eq_illegal_iff w v).1 hw).2)

/-- Settles O6: every line but `.cmd` spells the word of a command. -/
theorem assemblerSpellsTheCommands : Obligations.AssemblerSpellsTheCommands := by
  refine ⟨⟨rfl, rfl⟩, ⟨rfl, rfl⟩, fun b => ⟨rfl, fun hb => ?_, assemble_crcFeed_error⟩,
    ⟨rfl, rfl⟩, ⟨rfl, rfl⟩, ⟨rfl, rfl⟩, fun w => ⟨rfl, assemble_cmd w⟩, fun _ _ _ => cmd_of_illegal⟩
  exact ⟨assemble_crcFeed (Nat.lt_succ_of_le hb), assemble_crcFeed_encode (Nat.lt_succ_of_le hb)⟩

end Sys2Proof.Machine
end

section
/-! WAIT (spec/30_encoding.md R82). -/

namespace Sys2Proof.Machine

/-- The read of STATUS that a turn of WAIT makes: it returns DONE and BUSY, and at most draws a free value, for EXC and
EXCV while busy (R57, R196). -/
theorem busAccess_poll (s : State) :
    ∃ (v : Word) (k : Nat), v.getLsbD 1 = s.status.done ∧ v.getLsbD 0 = s.busy ∧
      busAccess pollAccess s = (.data v, { s with draws := k }) := by
  have hread : busAccess pollAccess s = _ := busAccess_read (g := .status) rfl rfl s
  rw [hread, readTarget]
  split
  · exact ⟨_, _, statusWordWith_bit1 _ _ s, statusWordWith_bit0 _ _ s, rfl⟩
  · exact ⟨_, s.draws, statusWordWith_bit1 _ _ s, statusWordWith_bit0 _ _ s, rfl⟩

/-- A turn of WAIT makes one read of STATUS, and the line is done when DONE reads 1. -/
theorem hostTurn_wait {s : State} {rest : List HostLine} {v : Word} {k : Nat} (hp : s.program = .wait :: rest)
    (hv : busAccess pollAccess s = (.data v, { s with draws := k })) :
    hostTurn s = { s with
      draws := k, program := if v.getLsbD 1 then rest else s.program, trace := (pollAccess, .data v) :: s.trace } := by
  simp only [hostTurn, hp, hostAccess, hv, waitEnds]
  split <;> rfl

/-- Settles O44: the read returns DONE as it is, and WAIT ends by it. -/
theorem waitPollsUntilDone : Obligations.WaitPollsUntilDone := by
  intro s rest ts hl hp hts
  obtain ⟨v, k, hdone, hbusy, hread⟩ := busAccess_poll { s with turns := ts }
  refine ⟨v, k, hdone, hbusy, ?_⟩
  rw [step_turn hl hts, takeTurn, hostTurn_wait (s := { s with turns := ts }) hp hread, hdone]
  rfl

end Sys2Proof.Machine
end

section
/-! The one-byte step of the CRC and its fold (spec/40_crc.md R100, R101). -/

namespace Sys2Proof.Machine

/-! ## Shift steps -/

/-- A shift step as one XOR: what is added to the shifted value depends on the low bit alone. -/
theorem crcShift_eq_xor (c : Half) : crcShift c = (c >>> 1) ^^^ (if c.getLsbD 0 then Config.crcPoly else 0) := by
  unfold crcShift
  split
  · rfl
  · exact BitVec.xor_zero.symm

theorem crcShift_xor (c d : Half) : crcShift (c ^^^ d) = crcShift c ^^^ crcShift d := by
  have hpoly : (if (c ^^^ d).getLsbD 0 then Config.crcPoly else 0) =
      (if c.getLsbD 0 then Config.crcPoly else 0) ^^^ (if d.getLsbD 0 then Config.crcPoly else 0) := by
    rw [BitVec.getLsbD_xor]
    cases c.getLsbD 0 <;> cases d.getLsbD 0 <;> decide
  simp only [crcShift_eq_xor, BitVec.ushiftRight_xor_distrib, hpoly]
  ac_rfl

/-- The top bit of a shift step is the low bit of the value: the constant 0xA001 has its top bit set. -/
theorem crcShift_topBit (c : Half) : (crcShift c).getLsbD 15 = c.getLsbD 0 := by
  rw [crcShift_eq_xor, BitVec.getLsbD_xor, BitVec.getLsbD_ushiftRight, BitVec.getLsbD_of_ge c 16 (Nat.le_refl 16)]
  cases c.getLsbD 0 <;> decide

theorem crcShift_of_lowBit_clear {c : Half} (h : c.getLsbD 0 = false) : crcShift c = c >>> 1 :=
  if_neg (Bool.eq_false_iff.1 h)

theorem crcShift_eq_zero {c : Half} (h : crcShift c = 0) : c = 0 := by
  have hlow : c.getLsbD 0 = false := by rw [← crcShift_topBit, h]; rfl
  rw [crcShift_of_lowBit_clear hlow] at h
  apply BitVec.eq_of_getLsbD_eq
  intro i hi
  cases i with
  | zero => exact hlow
  | succ i => rw [Nat.add_comm, ← BitVec.getLsbD_ushiftRight, h]; simp

theorem crcShifts_xor (n : Nat) (c d : Half) : crcShifts n (c ^^^ d) = crcShifts n c ^^^ crcShifts n d := by
  induction n generalizing c d with
  | zero => rfl
  | succ n ih => rw [crcShifts, crcShift_xor, ih]; rfl

theorem crcShifts_eq_zero {n : Nat} {c : Half} (h : crcShifts n c = 0) : c = 0 := by
  induction n generalizing c with
  | zero => exact h
  | succ n ih => exact crcShift_eq_zero (ih h)

/-- Shift steps are linear and only 0 goes to 0, so they lose nothing. -/
theorem crcShifts_injective (n : Nat) : Function.Injective (crcShifts n) := fun c d h =>
  BitVec.xor_eq_zero_iff.1 <| crcShifts_eq_zero (n := n) <| by rw [crcShifts_xor, h, BitVec.xor_self]; rfl

/-- While the bits that leave are 0, shift steps only shift. -/
theorem crcShifts_of_lowBits_clear {n : Nat} {c : Half} (h : ∀ k, k < n → c.getLsbD k = false) :
    crcShifts n c = c >>> n := by
  induction n generalizing c with
  | zero => exact (BitVec.ushiftRight_zero c).symm
  | succ n ih =>
    rw [crcShifts, crcShift_of_lowBit_clear (h 0 (Nat.succ_pos n)), ih, ← BitVec.shiftRight_add, Nat.add_comm]
    intro k hk
    rw [BitVec.getLsbD_ushiftRight]
    exact h (1 + k) (by omega)

/-- The last of the shift steps comes last. -/
theorem crcShifts_succ (n : Nat) (c : Half) : crcShifts (n + 1) c = crcShift (crcShifts n c) := by
  induction n generalizing c with
  | zero => rfl
  | succ n ih => exact ih (crcShift c)

/-! ## One byte -/

theorem crc16Update_xor (c d : Half) (a b : Byte) :
    crc16Update (c ^^^ d) (a ^^^ b) = crc16Update c a ^^^ crc16Update d b := by
  rw [crc16Update, crc16Update, crc16Update, ← crcShifts_xor, BitVec.setWidth_xor]
  congr 1
  ac_rfl

theorem crc16Update_zero : crc16Update 0 0 = 0 := by decide

/-- A 16-bit value is its high byte in place and its low byte. -/
theorem half_eq_highByte_xor_lowByte (c : Half) : c = ((c >>> 8) <<< 8) ^^^ (c.setWidth 8).setWidth 16 := by
  apply BitVec.eq_of_getLsbD_eq
  intro i hi
  by_cases h : i < 8
  · simp [h, hi]
  · have hsum : 8 + (i - 8) = i := by omega
    simp [h, hi, hsum]

/-- The high byte of the running value is only shifted down: no bit of it leaves in eight steps. -/
theorem crc16Update_highByte (c : Half) : crc16Update ((c >>> 8) <<< 8) 0#8 = c >>> 8 := by
  have hclear (k : Nat) (hk : k < 8) : ((c >>> 8) <<< 8).getLsbD k = false := by
    simp [hk]
  calc crc16Update ((c >>> 8) <<< 8) 0#8
    _ = crcShifts 8 ((c >>> 8) <<< 8) := congrArg (crcShifts 8) BitVec.xor_zero
    _ = ((c >>> 8) <<< 8) >>> 8 := crcShifts_of_lowBits_clear hclear
    _ = c >>> 8 := by bv_omega

/-- A low byte of the running value and the byte folded in count as their XOR. -/
theorem crc16Update_lowByte (a b : Byte) : crc16Update (a.setWidth 16) b = crc16Update 0 (a ^^^ b) := by
  rw [crc16Update, crc16Update, BitVec.setWidth_xor]
  exact congrArg (crcShifts 8) BitVec.zero_xor.symm

theorem crc16Update_eq_table (c : Half) (b : Byte) :
    crc16Update c b = (c >>> 8) ^^^ crc16Update 0 (c.setWidth 8 ^^^ b) :=
  calc crc16Update c b
    _ = crc16Update (((c >>> 8) <<< 8) ^^^ (c.setWidth 8).setWidth 16) (0#8 ^^^ b) := by
      rw [← half_eq_highByte_xor_lowByte, BitVec.zero_xor]
    _ = (c >>> 8) ^^^ crc16Update 0 (c.setWidth 8 ^^^ b) := by
      rw [crc16Update_xor, crc16Update_highByte, crc16Update_lowByte]

/-! ## Byte sequences -/

theorem crc16_append (bs cs : List Byte) : crc16 (bs ++ cs) = cs.foldl crc16Update (crc16 bs) := List.foldl_append

/-- Folding in the low byte of the running value shifts it out. -/
theorem crc16Update_crcLo (c : Half) : crc16Update c (crcLo c) = c >>> 8 := by
  have hlo : crcLo c = c.setWidth 8 := (BitVec.setWidth_eq_extractLsb' (by decide)).symm
  rw [crc16Update_eq_table, hlo, BitVec.xor_self]
  exact (congrArg (c >>> 8 ^^^ ·) crc16Update_zero).trans BitVec.xor_zero

/-- A byte sequence with its CRC, low byte first, has the CRC 0 (R105). -/
theorem crc16_with_crc (bs : List Byte) : crc16 (bs ++ [crcLo (crc16 bs), crcHi (crc16 bs)]) = 0 := by
  have hhi (c : Half) : crcHi c = crcLo (c >>> 8) := 
    BitVec.setWidth_ushiftRight_eq_extractLsb.symm.trans (BitVec.setWidth_eq_extractLsb' (by decide))
  rw [crc16_append]
  simp only [List.foldl_cons, List.foldl_nil]
  rw [crc16Update_crcLo, hhi, crc16Update_crcLo, ← BitVec.shiftRight_add]
  exact BitVec.ushiftRight_eq_zero (by decide)

/-! ## The statements -/

/-- Settles O13: the values are those of the shift steps so far. -/
theorem crcUpdateIsEightShifts : Obligations.CrcUpdateIsEightShifts := fun c b =>
  ⟨fun k => crcShifts k (c ^^^ b.setWidth 16), rfl, fun k _ => crcShifts_succ k _, rfl⟩

/-- Settles O14: the CRC is a fold from the seed. -/
theorem crcFoldsFromTheSeed : Obligations.CrcFoldsFromTheSeed :=
  ⟨rfl, fun bs b => crc16_append bs [b]⟩

/-- Settles O15: each shift step is linear. -/
theorem crcUpdateIsXorLinear : Obligations.CrcUpdateIsXorLinear := crc16Update_xor

/-- Settles O16: the shift steps lose nothing, and neither does the XOR before them. -/
theorem crcUpdateLosesNothing : Obligations.CrcUpdateLosesNothing := by
  refine ⟨fun c d b h => ?_, fun c a b h => ?_⟩
  · exact (BitVec.xor_left_inj _).1 (crcShifts_injective 8 h)
  · have hwide : a.setWidth 16 = b.setWidth 16 := (BitVec.xor_right_inj _).1 (crcShifts_injective 8 h)
    simpa using congrArg (BitVec.setWidth 8) hwide

/-- Settles O17: the high byte is only shifted, and the low byte counts as a part of the byte folded in. -/
theorem crcUpdateHasTableForm : Obligations.CrcUpdateHasTableForm := crc16Update_eq_table

end Sys2Proof.Machine
end

section
/-! The CRC commands (spec/40_crc.md R103 to R106). -/

namespace Sys2Proof.Machine

/-! ## Their words (R74) -/

/-- OP of a command's word is the command's opcode (R70). -/
theorem encode_op (i : Instr) : (encode i).extractLsb' 0 4 = i.fields.op :=
  congrArg CmdFields.op (CmdFields.ofWord_word i.fields)

/-- Of the words with opcode 1 only the word of CRC_INIT is legal. -/
theorem decodeCmd_illegal_of_op_crcInit {w : Word} (hop : w.extractLsb' 0 4 = 1) (hw : w ≠ 0x00000001#32) :
    decodeCmd w = .illegal w := by
  refine decodeCmd_illegal fun i hi => ?_
  rw [hi, encode_op] at hop
  cases i with
  | crcInit => exact hw hi
  | crcFeed b => exact absurd hop (show (2#4) ≠ 1 by decide)
  | _ => exact absurd hop (by decide)

/-- Of the words with opcode 2 only those in the row of CRC_FEED are legal. -/
theorem decodeCmd_illegal_of_op_crcFeed {w : Word} (hop : w.extractLsb' 0 4 = 2)
    (hw : w &&& 0xFFFF00FF#32 ≠ 0x00000002#32) : decodeCmd w = .illegal w := by
  refine decodeCmd_illegal (ne_encode_of_unmatched (fun hmem => ?_) hw)
  have hne : ∀ v ∈ [0x00000000#32, 0x00000001#32, 0x00000003#32, 0x00000004#32, 0x00000005#32],
      v.extractLsb' 0 4 ≠ 2 := by simp
  exact hne w hmem hop

/-- Settles O11: the fields of the words with opcode 1 and the meaning of CRC_INIT. -/
theorem crcInitSetsTheSeed : Obligations.CrcInitSetsTheSeed :=
  ⟨decodeCmd_encode .crcInit, rfl, fun _ => decodeCmd_illegal_of_op_crcInit, fun _ => rfl⟩

/-- Settles O12: the row of CRC_FEED and its meaning. -/
theorem crcFeedFoldsOneByte : Obligations.CrcFeedFoldsOneByte := by
  refine ⟨fun _ => decodeCmd_crcFeed, fun _ => decodeCmd_illegal_of_op_crcFeed, fun _ _ => rfl, by decide, by decide,
    fun b => ?_⟩
  rw [assemble_crcFeed_encode b.isLt, BitVec.ofNat_toNat, BitVec.setWidth_eq]

/-! ## CRC_BUF -/

/-- CRC_BUF over written bytes reads their values and no free value (R105). -/
theorem execCrcBuf_written {s : State} {bs : List Byte} (hlen : s.flen.toNat = bs.length) (hmax : bs.length ≤ 256)
    (hbs : s.holds 0 bs) : exec .crcBuf s = .next (complete .none { s with crc := crc16 bs }) := by
  have hread : exec .crcBuf s = _ := execCrcBuf_read (hlen.trans_le hmax)
  rw [hread, flenOf, hlen, readBytes_written hbs]

/-- Settles O18: the completion that `execCrcBuf_written` gives, written out. -/
theorem crcBufComputesTheCrc : Obligations.CrcBufComputesTheCrc := fun _ _ => execCrcBuf_written

/-- Settles O19: the length is refused before any byte is read. -/
theorem crcBufRefusesLongCounts : Obligations.CrcBufRefusesLongCounts := fun _ => execCrcBuf_long

/-- Settles O22: the CRC of bytes with their CRC is 0. -/
theorem frameResidueIsZero : Obligations.FrameResidueIsZero := by
  intro s bs hmax hlen hbs
  exact ⟨_, execCrcBuf_written (hlen.trans (by simp)) (by simpa using hmax) hbs, crc16_with_crc bs, rfl⟩

end Sys2Proof.Machine
end

section
/-! What each command leaves as it was (spec/40_crc.md section 2, spec/41_frame_codec.md R122 and R123). -/

namespace Sys2Proof.Machine

@[simp] theorem readBytes_hdr (i n : Nat) (s : State) : (readBytes i n s).2.hdr = s.hdr := by rw [readBytes_state]
@[simp] theorem readBytes_plen (i n : Nat) (s : State) : (readBytes i n s).2.plen = s.plen := by rw [readBytes_state]
@[simp] theorem readBytes_flen (i n : Nat) (s : State) : (readBytes i n s).2.flen = s.flen := by rw [readBytes_state]
@[simp] theorem readBytes_program (i n : Nat) (s : State) : (readBytes i n s).2.program = s.program := by
  rw [readBytes_state]
@[simp] theorem readBytes_turns (i n : Nat) (s : State) : (readBytes i n s).2.turns = s.turns := by
  rw [readBytes_state]
@[simp] theorem readBytes_trace (i n : Nat) (s : State) : (readBytes i n s).2.trace = s.trace := by
  rw [readBytes_state]

section
variable {s u : State} {i : Instr} {code : ErrCode} (h : Performs s i code u)
include h

/-- No command writes HDR. -/
theorem Performs.hdr : u.hdr = s.hdr := by
  cases h with
  | keeps => rfl
  | setsCrc => simp
  | packs => simp
  | records => simp

/-- No command touches what stands outside the block. -/
theorem Performs.ports : u.program = s.program ∧ u.turns = s.turns ∧ u.trace = s.trace := by
  cases h with
  | keeps => exact ⟨rfl, rfl, rfl⟩
  | setsCrc => simp
  | packs => simp
  | records => simp

/-- Only ENCODE writes BUF and FLEN (R122). -/
theorem Performs.buf_flen (hi : i ≠ .encode) : u.buf = s.buf ∧ u.flen = s.flen := by
  cases h with
  | keeps => exact ⟨rfl, rfl⟩
  | setsCrc => simp
  | packs => exact absurd rfl hi
  | records => simp

/-- Only DECODE writes PLEN (R123). -/
theorem Performs.plen (hi : i ≠ .decode) : u.plen = s.plen := by
  cases h with
  | keeps => rfl
  | setsCrc => simp
  | packs => simp
  | records => exact absurd rfl hi

/-- Of BUF at most the header and the two CRC bytes of a frame with PLEN payload bytes are written (R122). -/
theorem Performs.buf_read {j : Nat} (h0 : j ≠ 0) (h1 : j ≠ 1) (hlo : j ≠ 2 + plenOf s)
    (hhi : j ≠ 3 + plenOf s) : u.buf.read j = s.buf.read j := by
  cases h with
  | keeps => rfl
  | setsCrc => simp
  | packs => simp only [putHeader_buf, read_write_other, ne_eq, h0, h1, hlo, hhi, not_false_eq_true]
  | records => simp

end

/-- A command that reads no byte draws no free value and raises no fault (R103, R104, R150). -/
theorem exec_draws_of_no_read {i : Instr} {s t : State} (ht : exec i s = .next t) (hcrcBuf : i ≠ .crcBuf)
    (hencode : i ≠ .encode) (hdecode : i ≠ .decode) : t.draws = s.draws ∧ t.unwrittenRead = s.unwrittenRead := by
  cases i with
  | nop => cases ht; exact ⟨rfl, rfl⟩
  | crcInit => cases ht; exact ⟨rfl, rfl⟩
  | crcFeed b => cases ht; exact ⟨rfl, rfl⟩
  | crcBuf => exact absurd rfl hcrcBuf
  | encode => exact absurd rfl hencode
  | decode => exact absurd rfl hdecode

/-- Settles O32, by what a completion performs. -/
theorem commandsKeepTheirFrame : Obligations.CommandsKeepTheirFrame := by
  intro i s t ht
  obtain ⟨code, u, hexec, hu⟩ := exec_performs i s
  obtain rfl : complete code u = t := Host.Outcome.next.inj (hexec.symm.trans ht)
  obtain ⟨hprogram, hturns, htrace⟩ := hu.ports
  refine ⟨hu.hdr, hu.berr, hprogram, hturns, htrace, hu.buf_flen, fun hi => ⟨hu.plen hi, ?_⟩, ?_,
    exec_draws_of_no_read ht, fun _ j => hu.buf_read⟩
  · exact hu.sameDecoded.resolve_right fun hdecode => hi hdecode.1
  · rintro rfl
    exact hu.crc_nop

end Sys2Proof.Machine
end

section
/-! A run that streams bytes through the machine (spec/40_crc.md R107). -/

namespace Sys2Proof.Machine

/-- With no turn scheduled and no command in flight the host goes on (log 6). -/
theorem step_fair_idle {s : State} (hl : errcodeLegal s = true) (hb : s.busy = false) (ht : s.turns = []) :
    step s = .next (hostTurn s) := by
  simp only [step, hl, if_true, nextEvent, ht, fairTurn, hb, Bool.false_eq_true, if_false]

/-- A line that writes CMD in an idle block is accepted (R161). -/
theorem hostTurn_cmd {s : State} {w : Word} {rest : List HostLine} (hb : s.busy = false)
    (hp : s.program = w32 Config.offCmd w :: rest) :
    hostTurn s = { accept w s with
      program := rest, trace := (.write .w32 Config.offCmd w, .ok) :: s.trace } := by
  have hwrite := busAccess_write_idle (n := .w32) (off := Config.offCmd) (g := .cmd) (s := { s with program := rest })
    rfl rfl hb w
  simp only [hostTurn, hp, w32, hostAccess, hwrite]
  rfl

/-- In the fair order a CMD line and the completion of its command are two steps. -/
theorem run_commandLine {s t : State} {i : Instr} {rest : List HostLine} (hl : errcodeLegal s = true)
    (hb : s.busy = false) (ht : s.turns = []) (hp : s.program = w32 Config.offCmd (encode i) :: rest)
    (hexec : exec i (hostTurn s) = .next t) (k : Nat) : core.run (k + 2) s = core.run k t := by
  have hline := hostTurn_cmd hb hp
  have hperform : step (hostTurn s) = exec i (hostTurn s) := by
    have hcur : (hostTurn s).cur = some (encode i) := congrArg State.cur hline
    rw [step_fair_inFlight (w := encode i) ?_ hcur ?_, performWord_instr (decodeCmd_encode i)]
    · rw [hline]; rfl
    · rw [hline]; exact ht
  exact (run_next (step_fair_idle hl hb ht) (k + 1)).trans (run_next (hperform.trans hexec) k)

/-- Between two lines of a stream: the last command has completed without an error, the fair order goes on, CRC.VALUE is
`c`, BUF is `m`, and the lines `ls` remain. -/
structure Streaming (c : Half) (m : Memory) (ls : List HostLine) (s : State) : Prop where
  errcodeLegal : errcodeLegal s = true
  idle : s.busy = false
  turns : s.turns = []
  done : s.status.done = true
  err : s.status.err = false
  crc : s.crc = c
  buf : s.buf = m
  program : s.program = ls

/-- The host's lines that feed the bytes. -/
def feedLines (bs : List Byte) : List HostLine := bs.map fun b => w32 Config.offCmd (encode (.crcFeed b))

/-- By induction on the bytes: each takes one CMD line and one completion. -/
theorem run_feedLines (bs : List Byte) {c : Half} {m : Memory} {s : State} (hs : Streaming c m (feedLines bs) s) :
    ∃ t, core.run (2 * bs.length) s = .next t ∧ Streaming (bs.foldl crc16Update c) m [] t := by
  induction bs generalizing c s with
  | nil => exact ⟨s, rfl, hs⟩
  | cons b bs ih =>
    have hline := hostTurn_cmd hs.idle hs.program
    have hfed : Streaming (crc16Update c b) m (feedLines bs)
        (complete .none { hostTurn s with crc := crc16Update (hostTurn s).crc b }) := by
      rw [hline]
      exact ⟨rfl, rfl, hs.turns, rfl, rfl, congrArg (crc16Update · b) hs.crc, hs.buf, rfl⟩
    obtain ⟨t, hrun, ht⟩ := ih hfed
    exact ⟨t, (run_commandLine hs.errcodeLegal hs.idle hs.turns hs.program rfl _).trans hrun, ht⟩

/-- Settles O21: CRC_INIT starts a stream at the seed, and the stream folds the bytes as `crc16` does. -/
theorem streamingEqualsBlock : Obligations.StreamingEqualsBlock := by
  intro bs hmax
  refine ⟨fun s hl hb hts hp => ?_, fun u hlen hbs => ⟨_, execCrcBuf_written hlen hmax hbs, rfl⟩⟩
  have hline := hostTurn_cmd hb hp
  have hinit : Streaming Config.crcSeed s.buf (feedLines bs)
      (complete .none { hostTurn s with crc := Config.crcSeed }) := by
    rw [hline]
    exact ⟨rfl, rfl, hts, rfl, rfl, rfl, rfl, rfl⟩
  obtain ⟨t, hrun, ht⟩ := run_feedLines bs hinit
  exact ⟨t, (run_commandLine hl hb hts hp rfl _).trans hrun, ht.crc, ht.idle, ht.done, ht.err, ht.program, ht.buf⟩

end Sys2Proof.Machine
end

section
/-! What a command sees of the machine (spec/40_crc.md R108, spec/60_exceptions.md R170): the block's own data, and
nothing of the command record, the model's draws and flag, or what stands outside the block. Each command is factored
into stores, one read of a range of BUF, and stores that depend on the bytes read. -/

namespace Sys2Proof.Machine

/-- `s` with all that no command depends on taken from `e`: the record of the last command and BERR, the model's
flag and draws, and what stands outside the block. -/
def State.inEnv (s e : State) : State :=
  { s.withHostPart e with turns := e.turns }

/-- The operation neither depends on nor changes what `State.inEnv` takes. -/
def Transparent (f : State → State) : Prop := ∀ s e, f (s.inEnv e) = (f s).inEnv e

theorem Transparent.keeps {f : State → State} (hf : Transparent f) (s : State) : f s = (f s).inEnv s := hf s s

theorem complete_inEnv (code : ErrCode) (s e : State) :
    complete code (s.inEnv e) = (complete code s).inEnv (complete code e) := rfl

/-! ## Reading BUF -/

theorem readByte_draws_le (i : Nat) (s : State) : s.draws ≤ (readByte i s).2.draws := by
  unfold readByte
  split
  · exact Nat.le_refl _
  · exact Nat.le_succ _

theorem readBytes_draws_le (i n : Nat) (s : State) : s.draws ≤ (readBytes i n s).2.draws := by
  induction n generalizing i s with
  | zero => exact Nat.le_refl _
  | succ n ih => exact (readByte_draws_le i s).trans (ih (i + 1) _)

/-- A read that draws no free value reads written bytes only: it gives the same bytes in any environment and changes
nothing. -/
theorem readBytes_undrawn {i n : Nat} {s : State} (h : (readBytes i n s).2.draws = s.draws) (e : State) :
    readBytes i n (s.inEnv e) = ((readBytes i n s).1, s.inEnv e) := by
  induction n generalizing i with
  | zero => rfl
  | succ n ih =>
    cases hi : s.buf.read i with
    | none =>
      have hbyte : (readByte i s).2.draws = s.draws + 1 := congrArg (·.2.draws) (readByte_unwritten hi)
      have hrest : (readByte i s).2.draws ≤ (readBytes i (n + 1) s).2.draws := readBytes_draws_le (i + 1) n _
      omega
    | some b =>
      have hbyte : readByte i s = (b, s) := readByte_written hi
      have hbyte' : readByte i (s.inEnv e) = (b, s.inEnv e) := readByte_written hi
      simp only [readBytes, hbyte] at h
      simp only [readBytes, hbyte, hbyte', ih h]

/-- `s` with other ports. -/
def State.withPorts (s : State) (p : List HostLine) (ts : List Turn) (tr : List (Access × Response)) : State :=
  { s with program := p, turns := ts, trace := tr }

section
variable (p : List HostLine) (ts : List Turn) (tr : List (Access × Response))

theorem readByte_withPorts (i : Nat) (s : State) :
    readByte i (s.withPorts p ts tr) = ((readByte i s).1, (readByte i s).2.withPorts p ts tr) := by
  cases h : s.buf.read i with
  | some b =>
    have h' : (s.withPorts p ts tr).buf.read i = some b := h
    rw [readByte_written h, readByte_written h']
  | none =>
    have h' : (s.withPorts p ts tr).buf.read i = none := h
    rw [readByte_unwritten h, readByte_unwritten h']
    rfl

theorem readBytes_withPorts (i n : Nat) (s : State) :
    readBytes i n (s.withPorts p ts tr) = ((readBytes i n s).1, (readBytes i n s).2.withPorts p ts tr) := by
  induction n generalizing i s with
  | zero => rfl
  | succ n ih => simp only [readBytes, readByte_withPorts, ih]

theorem Transparent.withPorts {f : State → State} (hf : Transparent f) (s : State) :
    f (s.withPorts p ts tr) = (f s).withPorts p ts tr :=
  calc f (s.withPorts p ts tr)
    _ = (f s).inEnv (s.withPorts p ts tr) := hf s (s.withPorts p ts tr)
    _ = ((f s).inEnv s).withPorts p ts tr := rfl
    _ = (f s).withPorts p ts tr := by rw [← hf.keeps]

end

/-! ## Commands as recipes -/

/-- How a command works, once its lengths are known: it stores, reads the first bytes of BUF, and by the bytes read it
stores again and completes with a code. -/
structure Recipe where
  before : State → State
  count : Nat
  after : List Byte → State → State
  code : List Byte → ErrCode

/-- The state that the recipe completes in. -/
def Recipe.perform (r : Recipe) (s : State) : State :=
  complete (r.code (readBytes 0 r.count (r.before s)).1)
    (r.after (readBytes 0 r.count (r.before s)).1 (readBytes 0 r.count (r.before s)).2)

/-- The recipe's stores are transparent. -/
def Recipe.Clean (r : Recipe) : Prop := Transparent r.before ∧ ∀ bs, Transparent (r.after bs)

/-- One store, no byte read: NOP, CRC_INIT, CRC_FEED, and every refusal of a length. -/
def Recipe.store (code : ErrCode) (f : State → State) : Recipe :=
  { before := id, count := 0, after := fun _ => f, code := fun _ => code }

/-- CRC_BUF over `n` bytes (R105). -/
def Recipe.crcBuf (n : Nat) : Recipe :=
  { before := id, count := n, after := fun bs s => { s with crc := crc16 bs }, code := fun _ => .none }

/-- ENCODE of a payload of `p` bytes (R122). -/
def Recipe.encode (p : Nat) : Recipe :=
  { before := putHeader
    count := p + 2
    after := fun bs s =>
      { s with
        buf := (s.buf.write (2 + p) (crcLo (crc16 bs))).write (3 + p) (crcHi (crc16 bs))
        flen := BitVec.ofNat 9 (p + 4)
        crc := crc16 bs }
    code := fun _ => .none }

/-- The bytes of a frame of `n` bytes hold their CRC (R125). -/
abbrev frameValid (bs : List Byte) (n : Nat) : Prop := crc16 (bs.take (n - 2)) = receivedCrc bs n

/-- DECODE of a frame of `n` bytes (R123, R125). -/
def Recipe.decode (n : Nat) : Recipe :=
  { before := id
    count := n
    after := fun bs s =>
      if frameValid bs n then recordFrame bs n { s with crc := crc16 (bs.take (n - 2)) }
      else { s with crc := crc16 (bs.take (n - 2)) }
    code := fun bs => if frameValid bs n then .none else .crcMismatch }

theorem Recipe.store_clean {f : State → State} (hf : Transparent f) (code : ErrCode) : (Recipe.store code f).Clean :=
  ⟨fun _ _ => rfl, fun _ => hf⟩

theorem Recipe.crcBuf_clean (n : Nat) : (Recipe.crcBuf n).Clean := ⟨fun _ _ => rfl, fun _ _ _ => rfl⟩

theorem Recipe.encode_clean (p : Nat) : (Recipe.encode p).Clean := ⟨fun _ _ => rfl, fun _ _ _ => rfl⟩

theorem Recipe.decode_clean (n : Nat) : (Recipe.decode n).Clean := by
  refine ⟨fun _ _ => rfl, fun bs s e => ?_⟩
  simp only [Recipe.decode]
  split
  · rfl
  · rfl

/-- DECODE of a length it accepts follows its recipe. -/
theorem execDecode_recipe {s : State} (hmin : Config.minFlen ≤ flenOf s) (hmax : flenOf s ≤ Config.maxFlen) :
    execDecode s = .next ((Recipe.decode (flenOf s)).perform s) := by
  rw [execDecode_read hmin hmax]
  simp only [Recipe.perform, Recipe.decode, id]
  split
  · rfl
  · rfl

/-- Every command follows a clean recipe, one and the same in every environment. -/
theorem exec_recipe (i : Instr) (s : State) :
    ∃ r : Recipe, r.Clean ∧ ∀ e, exec i (s.inEnv e) = .next (r.perform (s.inEnv e)) := by
  have hrefuse (code : ErrCode) : (Recipe.store code id).Clean := Recipe.store_clean (fun _ _ => rfl) code
  cases i with
  | nop => exact ⟨.store .none id, hrefuse .none, fun _ => rfl⟩
  | crcInit =>
    exact ⟨.store .none fun s => { s with crc := Config.crcSeed }, Recipe.store_clean (fun _ _ => rfl) _,
      fun _ => rfl⟩
  | crcFeed b =>
    exact ⟨.store .none fun s => { s with crc := crc16Update s.crc b }, Recipe.store_clean (fun _ _ => rfl) _,
      fun _ => rfl⟩
  | crcBuf =>
    rcases Nat.lt_or_ge Config.bufSize (flenOf s) with h | h
    · exact ⟨_, hrefuse .lenRange, fun e => execCrcBuf_long (s := s.inEnv e) h⟩
    · exact ⟨_, Recipe.crcBuf_clean (flenOf s), fun e => execCrcBuf_read (s := s.inEnv e) h⟩
  | encode =>
    rcases Nat.lt_or_ge Config.maxPlen (plenOf s) with h | h
    · exact ⟨_, hrefuse .lenRange, fun e => execEncode_long (s := s.inEnv e) h⟩
    · exact ⟨_, Recipe.encode_clean (plenOf s), fun e => if_neg (Nat.not_lt.2 h)⟩
  | decode =>
    rcases Nat.lt_or_ge Config.maxFlen (flenOf s) with hmax | hmax
    · exact ⟨_, hrefuse .lenRange, fun e => execDecode_long (s := s.inEnv e) hmax⟩
    · rcases Nat.lt_or_ge (flenOf s) Config.minFlen with hmin | hmin
      · exact ⟨_, hrefuse .invalidData, fun e => execDecode_short (s := s.inEnv e) hmin⟩
      · exact ⟨_, Recipe.decode_clean (flenOf s), fun e => execDecode_recipe (s := s.inEnv e) hmin hmax⟩

/-! ## Other ports -/

theorem Recipe.perform_withPorts {r : Recipe} (hr : r.Clean) (s : State) (p : List HostLine) (ts : List Turn)
    (tr : List (Access × Response)) : r.perform (s.withPorts p ts tr) = (r.perform s).withPorts p ts tr := by
  obtain ⟨hbefore, hafter⟩ := hr
  rw [Recipe.perform, hbefore.withPorts, readBytes_withPorts, (hafter _).withPorts]
  rfl

/-- Settles O60: the recipe performs alike with other ports. -/
theorem commandsIgnoreThePorts : Obligations.CommandsIgnoreThePorts := by
  intro i s t p ts tr ht
  obtain ⟨r, hr, hexec⟩ := exec_recipe i s
  obtain rfl : r.perform s = t := Host.Outcome.next.inj ((hexec s).symm.trans ht)
  exact (hexec (s.withPorts p ts tr)).trans (congrArg Host.Outcome.next (Recipe.perform_withPorts hr s p ts tr))

/-! ## Any environment, where no free value is drawn -/

/-- A recipe that draws no free value performs alike in any environment; only the record of the command is its own. -/
theorem Recipe.perform_inEnv {r : Recipe} (hr : r.Clean) {s : State} (hdraws : (r.perform s).draws = s.draws)
    (e : State) : ∃ code u, r.perform s = complete code u ∧
      r.perform (s.inEnv e) = (r.perform s).inEnv (complete code e) := by
  obtain ⟨hbefore, hafter⟩ := hr
  have hread : (readBytes 0 r.count (r.before s)).2.draws = (r.before s).draws :=
    calc (readBytes 0 r.count (r.before s)).2.draws
      _ = (r.perform s).draws := (congrArg State.draws ((hafter _).keeps _)).symm
      _ = s.draws := hdraws
      _ = (r.before s).draws := (congrArg State.draws (hbefore.keeps s)).symm
  have hstate : (readBytes 0 r.count (r.before s)).2 = r.before s :=
    congrArg Prod.snd (readBytes_undrawn hread (r.before s))
  refine ⟨r.code (readBytes 0 r.count (r.before s)).1, _, rfl, ?_⟩
  rw [Recipe.perform, hbefore, readBytes_undrawn hread, hafter, complete_inEnv, Recipe.perform, hstate]

theorem exec_inEnv {i : Instr} {s u : State} (hu : exec i s = .next u) (hdraws : u.draws = s.draws) (e : State) :
    ∃ code w, u = complete code w ∧ exec i (s.inEnv e) = .next (u.inEnv (complete code e)) := by
  obtain ⟨r, hr, hexec⟩ := exec_recipe i s
  obtain rfl : r.perform s = u := Host.Outcome.next.inj ((hexec s).symm.trans hu)
  obtain ⟨code, w, hw, hperform⟩ := Recipe.perform_inEnv hr hdraws e
  exact ⟨code, w, hw, (hexec e).trans (congrArg Host.Outcome.next hperform)⟩

end Sys2Proof.Machine
end

section
/-! The host's turns before a completion (spec/40_crc.md R108, spec/20_memory.md R59). -/

namespace Sys2Proof.Machine

/-- The host's turns before the engine's change the environment of the command in flight only, by induction on their
number. -/
theorem run_hostTurns (k : Nat) {s : State} {ts : List Turn} (hl : errcodeLegal s = true) (hb : s.busy = true)
    (hts : s.turns = List.replicate k .host ++ ts) :
    ∃ t, (∀ m, core.run (k + m) s = core.run m t) ∧ t = s.inEnv t ∧ t.turns = ts ∧ errcodeLegal t = true := by
  induction k generalizing s with
  | zero => exact ⟨s, fun m => by rw [Nat.zero_add], rfl, hts, hl⟩
  | succ k ih =>
    have hstep := step_turn hl hts
    have hkept := hostTurn_busy (s := { s with turns := List.replicate k .host ++ ts }) hb
    have hlegal := hostTurn_busy_errcodeLegal (s := { s with turns := List.replicate k .host ++ ts }) hb hl
    have hbusy := (congrArg State.busy hkept :).trans hb
    obtain ⟨t, hrun, henv, hturns, ht⟩ := ih hlegal hbusy (congrArg State.turns hkept :)
    refine ⟨t, fun m => ?_, ?_, hturns, ht⟩
    · rw [Nat.succ_add]
      exact (run_next hstep (k + m)).trans (hrun m)
    · rw [hkept] at henv
      exact henv

/-- Settles O56: the engine's turn finds the command's data as they were, and the command sees nothing else. -/
theorem resultsDoNotDependOnLatency : Obligations.ResultsDoNotDependOnLatency := by
  intro k s u w i ts hl hw hi hts hu hdraws
  obtain ⟨t, hrun, henv, hturns, ht⟩ := run_hostTurns k hl ((busy_iff s).2 ⟨w, hw⟩) hts
  have hcur : t.cur = some w := (congrArg State.cur henv).trans hw
  have hstep : step t = exec i (s.inEnv { t with turns := ts }) :=
    calc step t
      _ = performWord w { t with turns := ts } := (step_turn ht hturns).trans (takeTurn_engine hcur)
      _ = exec i { t with turns := ts } := performWord_instr hi _
      _ = exec i (s.inEnv { t with turns := ts }) :=
        congrArg (exec i) (congrArg (fun x : State => { x with turns := ts }) henv :)
  obtain ⟨code, v, rfl, hv⟩ := exec_inEnv hu hdraws { t with turns := ts }
  have hfinal : core.run (k + 1) s = _ := (hrun 1).trans (run_next (hstep.trans hv) 0)
  exact ⟨_, hfinal, rfl, rfl, rfl, rfl, rfl, rfl, rfl, rfl, rfl, rfl, rfl, rfl, rfl⟩

end Sys2Proof.Machine
end

section
/-! BUF as a list of written bytes (spec/10_state.md R32). -/

namespace Sys2Proof.Machine

theorem State.holds_nil (s : State) (i : Nat) : s.holds i [] := fun _ hk => absurd hk (Nat.not_lt_zero _)

theorem State.holds_cons_iff {s : State} {i : Nat} {b : Byte} {bs : List Byte} :
    s.holds i (b :: bs) ↔ s.buf.read i = some b ∧ s.holds (i + 1) bs := by
  constructor
  · refine fun h => ⟨h 0 (Nat.succ_pos _), fun k hk => ?_⟩
    rw [Nat.add_assoc, Nat.add_comm 1 k]
    exact h (k + 1) (Nat.succ_lt_succ hk)
  · rintro ⟨hhead, htail⟩ k hk
    cases k with
    | zero => exact hhead
    | succ k =>
      rw [← Nat.add_assoc, Nat.add_right_comm]
      exact htail k (Nat.lt_of_succ_lt_succ hk)

theorem State.holds_append_iff {s : State} {i : Nat} {bs cs : List Byte} :
    s.holds i (bs ++ cs) ↔ s.holds i bs ∧ s.holds (i + bs.length) cs := by
  induction bs generalizing i with
  | nil => exact ⟨fun h => ⟨s.holds_nil i, h⟩, And.right⟩
  | cons b bs ih =>
    have hlen : i + (b :: bs).length = i + 1 + bs.length := by rw [List.length_cons]; omega
    rw [List.cons_append, holds_cons_iff, holds_cons_iff, ih, hlen, and_assoc]

/-- Only the bytes of the range matter. -/
theorem State.holds.congr {s t : State} {i : Nat} {bs : List Byte} (h : s.holds i bs)
    (hread : ∀ j, i ≤ j → j < i + bs.length → t.buf.read j = s.buf.read j) : t.holds i bs := fun k hk =>
  (hread (i + k) (Nat.le_add_right i k) (Nat.add_lt_add_left hk i)).trans (h k hk)

end Sys2Proof.Machine
end

section
/-! ENCODE over a written payload (spec/41_frame_codec.md R120, R122, R124). -/

namespace Sys2Proof.Machine

/-- The two halves of a CRC as they stand in a frame, low byte first, make it up (R125). -/
theorem crcHi_append_crcLo (c : Half) : crcHi c ++ crcLo c = c :=
  (BitVec.extractLsb'_append_extractLsb'_eq_extractLsb' rfl).trans BitVec.extractLsb'_eq_self

/-- With the header put before it, a written payload is a written frame head. -/
theorem putHeader_holds {s : State} {p : List Byte} (hp : s.holds 2 p) :
    (putHeader s).holds 0 (s.hdr.addr :: s.hdr.func :: p) := by
  refine State.holds_cons_iff.2 ⟨?_, State.holds_cons_iff.2 ⟨read_write_same _ 1 _, hp.congr fun j hj _ => ?_⟩⟩
  · exact (read_write_other _ _ (by decide)).trans (read_write_same _ 0 _)
  · exact (read_write_other _ _ (by omega)).trans (read_write_other _ _ (by omega))

/-- Settles O23: the bytes that ENCODE reads are the header it has put and the payload. -/
theorem encodePacksTheFrame : Obligations.EncodePacksTheFrame := by
  intro s p hlen hmax hp
  have hpack : exec .encode s = _ := execEncode_pack (hlen.trans_le hmax)
  have hread : readBytes 0 (p.length + 2) (putHeader s) = (s.hdr.addr :: s.hdr.func :: p, putHeader s) :=
    readBytes_written (putHeader_holds hp)
  rw [hpack, plenOf, hlen, hread]
  rfl

/-- Settles O24: the two CRC bytes stand behind the head of the frame and overwrite nothing of it. -/
theorem encodedFrameStandsInBuf : Obligations.EncodedFrameStandsInBuf := by
  intro s p hlen hmax hp
  refine ⟨_, encodePacksTheFrame s p hlen hmax hp, State.holds_append_iff.2 ⟨?_, ?_⟩, ?_, fun j hj => ?_⟩
  · refine (putHeader_holds hp).congr fun j _ hj => ?_
    simp only [List.length_cons] at hj
    exact (read_write_other _ _ (by omega)).trans (read_write_other _ _ (by omega))
  · have hlo : 0 + (s.hdr.addr :: s.hdr.func :: p).length = 2 + p.length := by simp only [List.length_cons]; omega
    have hhi : 2 + p.length + 1 = 3 + p.length := by omega
    rw [hlo, State.holds_cons_iff, hhi, State.holds_cons_iff]
    exact ⟨(read_write_other _ _ (by omega)).trans (read_write_same _ _ _), read_write_same _ _ _,
      State.holds_nil _ _⟩
  · exact Nat.mod_eq_of_lt (by omega)
  · have hne (i : Nat) (hi : i < p.length + 4) : j ≠ i := by omega
    simp only [read_write_other, hne 0 (by omega), hne 1 (by omega), hne (2 + p.length) (by omega),
      hne (3 + p.length) (by omega), ne_eq, not_false_eq_true]

end Sys2Proof.Machine
end

section
/-! The length checks (spec/41_frame_codec.md R124). -/

namespace Sys2Proof.Machine

/-- Settles O25: each check by the case of the command's meaning that it leads to. -/
theorem lengthChecksStandInOrder : Obligations.LengthChecksStandInOrder := by
  refine ⟨fun _ => execEncode_long, fun _ hp => ⟨_, execEncode_pack hp, rfl⟩, fun _ => execDecode_long,
    fun _ => execDecode_short, fun s hmin hmax => ?_⟩
  have hread : exec .decode s = _ := execDecode_read hmin hmax
  split at hread
  · exact ⟨_, hread, .inl rfl⟩
  · exact ⟨_, hread, .inr rfl⟩

end Sys2Proof.Machine
end

section
/-! DECODE over a written frame (spec/41_frame_codec.md R121, R123, R125, R126, R131, R134). -/

namespace Sys2Proof.Machine

/-! ## The bytes of a frame -/

/-- Bytes of at least the smallest frame's length are address, function, payload and two CRC bytes (R121). -/
theorem eq_frame_of_length {bs : List Byte} (h : 4 ≤ bs.length) :
    ∃ (a f lo hi : Byte) (p : List Byte), bs = a :: f :: p ++ [lo, hi] := by
  match bs, h with
  | a :: f :: rest, h =>
    have hdrop : (rest.drop (rest.length - 2)).length = 2 := by
      rw [List.length_drop]
      simp only [List.length_cons] at h
      omega
    obtain ⟨lo, hi, htail⟩ := List.length_eq_two.1 hdrop
    refine ⟨a, f, lo, hi, rest.take (rest.length - 2), ?_⟩
    rw [← htail, List.cons_append, List.cons_append, List.take_append_drop]

section
variable (a f lo hi : Byte) (p : List Byte)

theorem frame_length : (a :: f :: p ++ [lo, hi]).length = p.length + 4 := by
  rw [List.length_append]
  rfl

theorem frame_take : (a :: f :: p ++ [lo, hi]).take (p.length + 4 - 2) = a :: f :: p := List.take_left' rfl

theorem frame_receivedCrc : receivedCrc (a :: f :: p ++ [lo, hi]) (p.length + 4) = hi ++ lo := by
  have hhi : byteAt (a :: f :: p ++ [lo, hi]) (p.length + 4 - 1) = hi := by simp [byteAt]
  have hlo : byteAt (a :: f :: p ++ [lo, hi]) (p.length + 4 - 2) = lo := by simp [byteAt]
  rw [receivedCrc, hhi, hlo]

/-- A frame is valid when the CRC of its head is the received one (R125). -/
theorem frameValid_iff : frameValid (a :: f :: p ++ [lo, hi]) (p.length + 4) ↔ crc16 (a :: f :: p) = hi ++ lo := by
  rw [frameValid, frame_take, frame_receivedCrc]

/-- The source's `decode` of at least four bytes (R121). -/
theorem decodeFrame_frame : decodeFrame (a :: f :: p ++ [lo, hi]) =
    if crc16 (a :: f :: p) = hi ++ lo then .ok ⟨a, f, p⟩ else .error .crcMismatch := by
  have hmin : ¬p.length + 4 < Config.minFlen := Nat.not_lt.2 (Nat.le_add_left 4 p.length)
  rw [decodeFrame, frame_length, if_neg hmin, frame_take, frame_receivedCrc]
  rfl

/-- The results that DECODE records, by the fields of the frame (R126). -/
theorem recordFrame_frame (s : State) : recordFrame (a :: f :: p ++ [lo, hi]) (p.length + 4) s =
    { s with
      plen := BitVec.ofNat 9 p.length
      dec := { addr := a, func := f, exccode := if f.getLsbD 7 then p.headD 0 else 0 }
      status := { s.status with exc := f.getLsbD 7, excv := f.getLsbD 7 && !p.isEmpty } } := by
  have hn : p.length + 4 - Config.minFlen = p.length := Nat.add_sub_cancel ..
  have hexcv : excvOf f p.length = (f.getLsbD 7 && !p.isEmpty) := by
    cases p with
    | nil => rfl
    | cons => exact congrArg _ (decide_eq_true (Nat.succ_pos _))
  have hexccode : (if f.getLsbD 7 && !p.isEmpty then byteAt (a :: f :: p ++ [lo, hi]) 2 else 0) =
      if f.getLsbD 7 then p.headD 0 else 0 := by
    cases p with
    | nil => simp
    | cons => simp [byteAt]
  have hfunc : byteAt (a :: f :: p ++ [lo, hi]) 1 = f := rfl
  simp only [recordFrame, hn, hfunc, hexcv, hexccode]
  rfl

end

/-! ## DECODE -/

section
variable {s : State} {a f lo hi : Byte} {p : List Byte} (hlen : s.flen.toNat = p.length + 4) (hmax : p.length ≤ 252)
  (hbs : s.holds 0 (a :: f :: p ++ [lo, hi]))
include hlen hmax hbs

/-- DECODE over a written frame reads its bytes and no free value, and compares the CRC of its head with the
received one (R123, R125). -/
theorem execDecode_frame : exec .decode s =
    if crc16 (a :: f :: p) = hi ++ lo then
      .next (complete .none
        (recordFrame (a :: f :: p ++ [lo, hi]) (p.length + 4) { s with crc := crc16 (a :: f :: p) }))
    else .next (complete .crcMismatch { s with crc := crc16 (a :: f :: p) }) := by
  have hmin : Config.minFlen ≤ flenOf s := (Nat.le_add_left 4 p.length).trans_eq hlen.symm
  have hcompare : exec .decode s = _ := execDecode_read hmin (hlen.trans_le (Nat.add_le_add_right hmax 4))
  have hread : readBytes 0 (p.length + 4) s = (a :: f :: p ++ [lo, hi], s) :=
    frame_length a f lo hi p ▸ readBytes_written hbs
  rw [hcompare, flenOf, hlen, hread, frame_take, frame_receivedCrc]

theorem execDecode_mismatch (hcrc : crc16 (a :: f :: p) ≠ hi ++ lo) :
    exec .decode s = .next (complete .crcMismatch { s with crc := crc16 (a :: f :: p) }) := by
  rw [execDecode_frame hlen hmax hbs, if_neg hcrc]

end

/-- Settles O26: the frame is valid, and DECODE records its fields. -/
theorem decodeReturnsTheFields : Obligations.DecodeReturnsTheFields := by
  intro s a f lo hi p hlen hmax hbs hcrc
  rw [execDecode_frame hlen hmax hbs, if_pos hcrc, recordFrame_frame]
  rfl

/-- The received CRC as R125 writes it. -/
theorem shiftLeft_or_eq_append (hi lo : Byte) : (hi.setWidth 16 <<< 8) ||| lo.setWidth 16 = hi ++ lo := by
  rw [BitVec.append_def, BitVec.shiftLeftZeroExtend_eq]
  rfl

/-- Settles O27: the comparison decides between the fields and the mismatch. -/
theorem decodeComparesTheReceivedCrc : Obligations.DecodeComparesTheReceivedCrc := by
  intro s a f lo hi p hlen hmax hbs
  rw [shiftLeft_or_eq_append]
  exact ⟨fun hcrc => ⟨_, decodeReturnsTheFields s a f lo hi p hlen hmax hbs hcrc, rfl⟩,
    execDecode_mismatch hlen hmax hbs⟩

/-- The payload of a written frame is written from BUF[2] on. -/
theorem State.holds.payload {s : State} {a f lo hi : Byte} {p : List Byte}
    (h : s.holds 0 (a :: f :: p ++ [lo, hi])) : s.holds 2 p :=
  (holds_cons_iff.1 (holds_cons_iff.1 (holds_append_iff.1 h).1).2).2

/-- An exception response carries its first payload byte as the exception code; any other frame carries none (R126). -/
theorem Frame.exceptionCode_eq (a f : Byte) (p : List Byte) :
    exceptionCode ⟨a, f, p⟩ = if f.getLsbD 7 then p.head? else none := rfl

theorem Frame.exceptionCode_isSome (a f : Byte) (p : List Byte) :
    (exceptionCode ⟨a, f, p⟩).isSome = (f.getLsbD 7 && !p.isEmpty) := by
  rw [exceptionCode_eq]
  split
  · next h =>
    rw [h, Bool.true_and]
    cases p with
    | nil => rfl
    | cons => rfl
  · next h => rw [Bool.eq_false_iff.2 h, Bool.false_and, Option.isSome_none]

theorem Frame.exceptionCode_getD (a f : Byte) (p : List Byte) :
    (exceptionCode ⟨a, f, p⟩).getD 0 = if f.getLsbD 7 then p.headD 0 else 0 := by
  rw [exceptionCode_eq, List.headD_eq_head?_getD]
  split
  · rfl
  · rfl

/-- Settles O28: too short a sequence, a mismatch and a valid frame, each as the source's `decode` answers it. -/
theorem decodeRefinesTheSourceDecode : Obligations.DecodeRefinesTheSourceDecode := by
  intro s bs hlen hmax hbs
  rcases Nat.lt_or_ge bs.length Config.minFlen with hshort | hmin
  · have hsource : decodeFrame bs = .error .invalidData := if_pos hshort
    rw [hsource]
    exact ⟨_, execDecode_short (hlen.trans_lt hshort),
      fun e he => Except.error.inj he ▸ ⟨rfl, rfl, rfl, rfl, rfl⟩, nofun⟩
  · obtain ⟨a, f, lo, hi, p, rfl⟩ := eq_frame_of_length hmin
    rw [frame_length] at hlen hmax
    have hmax : p.length ≤ 252 := Nat.le_of_add_le_add_right hmax
    rw [decodeFrame_frame]
    split
    · next hcrc =>
      refine ⟨_, decodeReturnsTheFields s a f lo hi p hlen hmax hbs hcrc, nofun, fun fr hfr => ?_⟩
      obtain rfl := Except.ok.inj hfr
      exact ⟨rfl, rfl, rfl, Nat.mod_eq_of_lt (by omega), hbs.payload, rfl, (Frame.exceptionCode_isSome a f p).symm,
        (Frame.exceptionCode_getD a f p).symm⟩
    · next hcrc =>
      exact ⟨_, execDecode_mismatch hlen hmax hbs hcrc,
        fun e he => Except.error.inj he ▸ ⟨rfl, rfl, rfl, rfl, rfl⟩, nofun⟩

/-- Settles O29: the frame that ENCODE leaves is valid by construction. -/
theorem decodeAfterEncodeReturnsTheFrame : Obligations.DecodeAfterEncodeReturnsTheFrame := by
  refine ⟨fun s t u p hlen hmax hp ht hflen hread => ?_, fun s hlong => ⟨_, execEncode_long hlong, rfl⟩⟩
  obtain ⟨t', ht', hframe, hcount, -⟩ := encodedFrameStandsInBuf s p hlen hmax hp
  obtain rfl : t' = t := Host.Outcome.next.inj (ht'.symm.trans ht)
  have hu : u.holds 0 _ := hframe.congr fun j _ hj => hread j (by rwa [frame_length, Nat.zero_add] at hj)
  have hplen : BitVec.ofNat 9 p.length = s.plen := by rw [← hlen, BitVec.ofNat_toNat, BitVec.setWidth_eq]
  exact ⟨_, decodeReturnsTheFields u _ _ _ _ p (hflen ▸ hcount) hmax hu (crcHi_append_crcLo _).symm,
    rfl, rfl, rfl, hplen, hu.payload⟩

end Sys2Proof.Machine
end

section
/-! Errors in a frame (spec/41_frame_codec.md R132, by the algebra of spec/40_crc.md R100 and R101). -/

namespace Sys2Proof.Machine

/-- The fold of the CRC loses nothing of the value it starts from. -/
theorem foldl_crc16Update_injective (bs : List Byte) : Function.Injective (bs.foldl crc16Update) := by
  induction bs with
  | nil => exact Function.injective_id
  | cons b bs ih => exact fun c d h => crcUpdateLosesNothing.1 c d b (ih h)

/-- One byte in its place loses nothing either: the bytes before it fold alike. -/
theorem crc16_byte_injective (before after : List Byte) :
    Function.Injective fun b => crc16 (before ++ b :: after) := by
  intro b c h
  simp only [crc16_append, List.foldl_cons] at h
  exact crcUpdateLosesNothing.2 _ b c (foldl_crc16Update_injective after h)

/-- Any change of one byte changes the CRC. -/
theorem crc16_set_ne {bs : List Byte} {i : Nat} (hi : i < bs.length) {b : Byte} (hb : b ≠ bs[i]) :
    crc16 (bs.set i b) ≠ crc16 bs := by
  have hold : bs.take i ++ bs[i] :: bs.drop (i + 1) = bs := by simp
  have hnew : bs.set i b = bs.take i ++ b :: bs.drop (i + 1) := List.set_eq_take_append_cons_drop.trans (if_pos hi)
  intro h
  rw [hnew] at h
  exact hb (crc16_byte_injective _ _ (h.trans (congrArg crc16 hold.symm)))

/-- The CRC of a whole valid frame, its CRC bytes included, is 0 (R105). -/
theorem crc16_valid_frame {a f lo hi : Byte} {p : List Byte} (h : crc16 (a :: f :: p) = hi ++ lo) :
    crc16 (a :: f :: p ++ [lo, hi]) = 0 := by
  have hlo : crcLo (hi ++ lo) = lo := BitVec.extractLsb'_append_eq_right
  have hhi : crcHi (hi ++ lo) = hi := BitVec.extractLsb'_append_eq_left
  have hresidue := crc16_with_crc (a :: f :: p)
  rwa [h, hlo, hhi] at hresidue

/-- Flipping a bit changes a byte. -/
theorem flipBit_ne (b : Byte) {k : Nat} (hk : k < 8) : b ^^^ (1#8 <<< k) ≠ b := by
  intro h
  have hbit : (b ^^^ (1#8 <<< k)).getLsbD k = b.getLsbD k := by rw [h]
  simp [hk] at hbit

/-- Settles O30: a valid frame has the CRC 0 as a whole, and a changed byte changes that. -/
theorem decodeDetectsEverySingleBitFlip : Obligations.DecodeDetectsEverySingleBitFlip := by
  intro s bs i k hmin hmax hvalid hlt hk hlen hbs
  have hlength : (bs.set i (bs.getD i 0 ^^^ (1#8 <<< k))).length = bs.length := List.length_set ..
  have hchanged : crc16 (bs.set i (bs.getD i 0 ^^^ (1#8 <<< k))) ≠ 0 := by
    have hzero : crc16 bs = 0 := by
      obtain ⟨a, f, lo, hi, p, rfl⟩ := eq_frame_of_length hmin
      rw [frame_length] at hvalid
      exact crc16_valid_frame ((frameValid_iff a f lo hi p).1 hvalid)
    rw [← hzero, List.getD_eq_getElem _ _ hlt]
    exact crc16_set_ne hlt (flipBit_ne _ hk)
  obtain ⟨a, f, lo, hi, p, hframe⟩ := eq_frame_of_length (hlength ▸ hmin)
  have hcount : bs.length = p.length + 4 := by rw [← hlength, hframe, frame_length]
  rw [hframe] at hbs hchanged
  rw [hcount] at hlen hmax
  exact ⟨_, execDecode_mismatch hlen (Nat.le_of_add_le_add_right hmax) hbs (mt crc16_valid_frame hchanged),
    rfl, rfl, rfl⟩

end Sys2Proof.Machine
end

section
/-! Commands that fail (spec/41_frame_codec.md R133). -/

namespace Sys2Proof.Machine

/-- A command that ends with ERR = 1 has refused a length and kept the state, or it is a DECODE that has read bytes,
written CRC.VALUE and found a mismatch (R106, R124, R133). -/
theorem exec_failed {i : Instr} {s t : State} (h : exec i s = .next t) (herr : t.status.err = true) :
    (∃ code, code ≠ .none ∧ t = complete code s) ∨
      ∃ n c, t = complete .crcMismatch { (readBytes 0 n s).2 with crc := c } := by
  have hnone {u : State} (hu : exec i s = .next (complete .none u)) : False := by
    obtain rfl := Host.Outcome.next.inj (hu.symm.trans h)
    exact absurd herr Bool.false_ne_true
  have hkeeps {code : ErrCode} (hc : code ≠ .none) (hu : exec i s = .next (complete code s)) :
      ∃ code, code ≠ .none ∧ t = complete code s :=
    ⟨code, hc, Host.Outcome.next.inj (h.symm.trans hu)⟩
  cases i with
  | nop => exact (hnone rfl).elim
  | crcInit => exact (hnone rfl).elim
  | crcFeed b => exact (hnone rfl).elim
  | crcBuf =>
    rcases Nat.lt_or_ge Config.bufSize (flenOf s) with hmax | hmax
    · exact .inl (hkeeps (by decide) (execCrcBuf_long hmax))
    · exact (hnone (execCrcBuf_read hmax)).elim
  | encode =>
    rcases Nat.lt_or_ge Config.maxPlen (plenOf s) with hmax | hmax
    · exact .inl (hkeeps (by decide) (execEncode_long hmax))
    · exact (hnone (execEncode_pack hmax)).elim
  | decode =>
    rcases Nat.lt_or_ge Config.maxFlen (flenOf s) with hmax | hmax
    · exact .inl (hkeeps (by decide) (execDecode_long hmax))
    · rcases Nat.lt_or_ge (flenOf s) Config.minFlen with hmin | hmin
      · exact .inl (hkeeps (by decide) (execDecode_short hmin))
      · have hread := execDecode_read hmin hmax
        split at hread
        · exact (hnone hread).elim
        · exact .inr ⟨_, _, Host.Outcome.next.inj (h.symm.trans hread)⟩

/-- Settles O31: a refusal keeps all but STATUS, and a mismatch is reported after reads and a write of CRC.VALUE. -/
theorem failedCommandWritesOnlyStatus : Obligations.FailedCommandWritesOnlyStatus := by
  intro i s t h herr
  rcases exec_failed h herr with ⟨code, hnone, rfl⟩ | ⟨n, c, rfl⟩
  · refine ⟨?_, fun _ => ⟨rfl, rfl, rfl⟩⟩
    rw [complete, decide_eq_true hnone]
  · refine ⟨?_, fun hcode => absurd rfl hcode⟩
    rw [readBytes_state]
    rfl

end Sys2Proof.Machine
end

section
/-! The control commands: NOP and ILLEGAL (spec/42_control.md R150, R151). -/

namespace Sys2Proof.Machine

/-! ## The illegal words (R76) -/

/-- A word whose fields break a rule of R71 or R73 is ILLEGAL. -/
theorem decodeCmd_illegal_of_illFormed {w : Word} (h : ¬(CmdFields.ofWord w).wellFormed = true) :
    decodeCmd w = .illegal w :=
  decodeCmd_illegal (not_exists.1 (mt (wellFormed_ofWord_iff w).2 h))

/-! ## STATUS around a completion -/

/-- STATUS as it reads after a completion from a state with BERR, EXC and EXCV 0: ERRCODE and ERR say the
outcome, DONE is 1 and BUSY is 0 (R162). -/
theorem statusWord_complete_of_flags_clear {s : State} (hberr : s.status.berr = false) (hexc : s.status.exc = false)
    (hexcv : s.status.excv = false) (code : ErrCode) :
    statusWord (complete code s) = 0#20 ++ code.bits ++ 0#5 ++ BitVec.ofBool (decide (code ≠ .none)) ++ 0b10#2 := by
  simp only [statusWord, statusWordWith, complete_status, complete_busy, hberr, hexc, hexcv]
  cases code <;> decide

/-- The flags that acceptance and `complete` leave as they were, as they read in STATUS (R161, R162). -/
theorem keptFlags_eq_statusWord_bits (s : State) :
    s.status.berr = (statusWord s).getLsbD 3 ∧ s.status.exc = (statusWord s).getLsbD 4 ∧
      s.status.excv = (statusWord s).getLsbD 5 :=
  ⟨(statusWordWith_bit3 ..).symm, (statusWordWith_bit4 ..).symm, (statusWordWith_bit5 ..).symm⟩

/-! ## The engine's turn -/

/-- At the engine's turn the word in flight completes (R162). -/
theorem step_engineMoves {s : State} {w : Word} {ts : List Turn} (h : s.engineMoves w ts) :
    step s = performWord w { s with turns := ts } := by
  obtain ⟨hlegal, hcur, hturns⟩ := h
  rw [step_turn hlegal hturns]
  exact takeTurn_engine hcur

/-- An illegal word in flight completes with ILLEGAL_CMD (R151). -/
theorem step_illegal {s : State} {w v : Word} {ts : List Turn} (hw : decodeCmd w = .illegal v)
    (h : s.engineMoves w ts) : step s = .next (complete .illegalCmd { s with turns := ts }) := by
  rw [step_engineMoves h, performWord_illegal hw]

/-! ## The statements -/

/-- Settles O8: the examples break a rule on the fields, and the engine's turn is `complete` with ILLEGAL_CMD. -/
theorem illegalCommandOnlyReports : Obligations.IllegalCommandOnlyReports := by
  refine ⟨fun w hw => decodeCmd_illegal_of_illFormed ?_, fun _ _ _ _ => step_illegal, fun ts t ht => ?_⟩
  · revert w
    simp [CmdFields.wellFormed_iff, CmdFields.ofWord]
  · have hword : decodeCmd 0x0000000F#32 = .illegal 0x0000000F#32 := decodeCmd_illegal_of_illFormed (by decide)
    have hturn : State.engineMoves { accept 0x0000000F#32 State.reset with turns := .engine :: ts } 0x0000000F#32 ts :=
      ⟨rfl, rfl, rfl⟩
    obtain rfl := Host.Outcome.next.inj (ht.symm.trans (step_illegal hword hturn))
    rw [statusWord_complete_of_flags_clear rfl rfl rfl]
    decide

/-- Settles O10: acceptance and NOP keep BERR, EXC and EXCV, which are 0 in the example's STATUS, and the completion
decides every other bit. -/
theorem nopOnlyCompletes : Obligations.NopOnlyCompletes := by
  refine ⟨decodeCmd_encode .nop, rfl, fun _ => rfl, fun s t _ hstatus ht => ?_⟩
  obtain rfl : complete .none (accept 0x00000000#32 s) = t := Host.Outcome.next.inj ht
  obtain ⟨hberr, hexc, hexcv⟩ := keptFlags_eq_statusWord_bits s
  rw [hstatus] at hberr hexc hexcv
  calc statusWord (complete .none (accept 0x00000000#32 s))
    _ = 0#20 ++ ErrCode.none.bits ++ 0#5 ++ BitVec.ofBool (decide (ErrCode.none ≠ .none)) ++ 0b10#2 :=
      statusWord_complete_of_flags_clear hberr hexc hexcv .none
    _ = 0x00000002#32 := by decide

end Sys2Proof.Machine
end

section
/-! Outcomes and turns of commands (spec/60_exceptions.md R160, R162). -/

namespace Sys2Proof.Machine

/-- A command never completes with ILLEGAL_CMD, the outcome of the illegal words alone (R124, R151). -/
theorem exec_completes_legal (i : Instr) (s : State) :
    ∃ code u, exec i s = .next (complete code u) ∧ code ≠ .illegalCmd := by
  cases i with
  | nop => exact ⟨.none, s, rfl, nofun⟩
  | crcInit => exact ⟨.none, { s with crc := Config.crcSeed }, rfl, nofun⟩
  | crcFeed b => exact ⟨.none, { s with crc := crc16Update s.crc b }, rfl, nofun⟩
  | crcBuf =>
    rcases Nat.lt_or_ge Config.bufSize (flenOf s) with hmax | hmax
    · exact ⟨_, _, execCrcBuf_long hmax, nofun⟩
    · exact ⟨_, _, execCrcBuf_read hmax, nofun⟩
  | encode =>
    rcases Nat.lt_or_ge Config.maxPlen (plenOf s) with hmax | hmax
    · exact ⟨_, _, execEncode_long hmax, nofun⟩
    · exact ⟨_, _, execEncode_pack hmax, nofun⟩
  | decode =>
    rcases Nat.lt_or_ge Config.maxFlen (flenOf s) with hmax | hmax
    · exact ⟨_, _, execDecode_long hmax, nofun⟩
    · rcases Nat.lt_or_ge (flenOf s) Config.minFlen with hmin | hmin
      · exact ⟨_, _, execDecode_short hmin, nofun⟩
      · have hread := execDecode_read hmin hmax
        split at hread
        · exact ⟨_, _, hread, nofun⟩
        · exact ⟨_, _, hread, nofun⟩

/-- The codes that a command can record are 0 to 3 (R160). -/
theorem errCode_bits_le_three {code : ErrCode} (h : code ≠ .illegalCmd) : code.bits.toNat ≤ 3 := by
  cases code with
  | illegalCmd => exact absurd rfl h
  | _ => decide

/-- ERR is recorded exactly when ERRCODE is not 0 (R26, R162). -/
theorem complete_err_iff (code : ErrCode) (s : State) :
    (complete code s).status.err = true ↔ (complete code s).status.errcode ≠ 0 :=
  decide_eq_true_iff.trans (not_congr (errCode_bits_eq_zero code).symm)

/-- Settles O9: every command ends in `complete`, with a code other than ILLEGAL_CMD. -/
theorem everyCommandCompletes : Obligations.EveryCommandCompletes := by
  intro i s
  obtain ⟨code, u, hexec, hcode⟩ := exec_completes_legal i s
  exact ⟨complete code u, hexec, rfl, rfl, errCode_bits_le_three hcode, complete_err_iff code u⟩

/-- Settles O7: the engine's turn and the fair turn perform the word in flight, which decodes to the command. -/
theorem stepRunsTheDecodedCommand : Obligations.StepRunsTheDecodedCommand := fun s _ _ ts hi =>
  ⟨fun h => (step_engineMoves h).trans (performWord_instr hi { s with turns := ts }),
    fun hl hw hts => (step_fair_inFlight hl hw hts).trans (performWord_instr hi s)⟩

end Sys2Proof.Machine
end

section
/-! Accesses that the bus refuses, and writes to CMD (spec/60_exceptions.md R161, R166). -/

namespace Sys2Proof.Machine

/-- Outside BUF: the registers and reserved offsets below it, and the offsets above it (R22). -/
theorem inBuf_eq_false_iff (off : Offset) : inBuf off = false ↔ off.toNat ≤ 0x0FF ∨ 0x200 ≤ off.toNat := by
  rw [Bool.eq_false_iff, Ne, inBuf_iff]
  omega

/-- Outside BUF no narrow access is allowed; in BUF a 2-byte access needs an even offset; a 4-byte access needs a
multiple of 4 (R53). -/
theorem busAllowed_eq_false_iff (n : Width) (off : Offset) : busAllowed n off = false ↔
    ((n = .w8 ∨ n = .w16) ∧ (off.toNat ≤ 0x0FF ∨ 0x200 ≤ off.toNat)) ∨
    (n = .w16 ∧ 0x100 ≤ off.toNat ∧ off.toNat ≤ 0x1FF ∧ off.toNat % 2 = 1) ∨
    (n = .w32 ∧ off.toNat % 4 ≠ 0) := by
  cases n with
  | w8 => simp [busAllowed, inBuf_eq_false_iff]
  | w16 =>
    simp only [busAllowed, Bool.and_eq_false_iff, inBuf_eq_false_iff, decide_eq_false_iff_not, reduceCtorEq, or_true,
      true_and, false_and, or_false]
    omega
  | w32 => simp [busAllowed]

/-- A refused write is answered with a bus error and changes nothing, BERR included (R166, R168). -/
theorem busAccess_write_refused {n : Width} {off : Offset} (ha : busAllowed n off = false) (v : Word) (s : State) :
    busAccess (.write n off v) s = (.busError off n, s) := by
  simp only [busAccess, ha, Bool.false_eq_true, if_false]

/-- A refused read is answered with a bus error and changes nothing (R166, R168). -/
theorem busAccess_read_refused {n : Width} {off : Offset} (ha : busAllowed n off = false) (s : State) :
    busAccess (.read n off) s = (.busError off n, s) := by
  simp only [busAccess, ha, Bool.false_eq_true, if_false]

/-- Settles O35: the check of width and alignment by its cases, and the host's turn with a refused access. -/
theorem busErrorsAreExactlyThese : Obligations.BusErrorsAreExactlyThese :=
  ⟨busAllowed_eq_false_iff,
    fun _ _ _ v _ _ h ha => step_hostMoves h (busAccess_write_refused ha v _),
    fun _ _ _ _ _ h ha => step_hostMoves h (busAccess_read_refused ha _)⟩

/-- Settles O33: an idle write to CMD is `accept`, a busy one `setBerr`. -/
theorem cmdWriteIsAcceptedWhenIdle : Obligations.CmdWriteIsAcceptedWhenIdle := by
  intro s w rest ts h
  refine ⟨fun hb => step_hostMoves h ?_, fun hb => step_hostMoves h ?_⟩
  · exact busAccess_write_idle (s := { s with program := rest, turns := ts }) (g := .cmd) rfl rfl hb w
  · exact busAccess_write_busy (s := { s with program := rest, turns := ts }) rfl (by decide) hb w

end Sys2Proof.Machine
end

section
/-! The fault flag over a step (spec/60_exceptions.md R167, spec/70_reset_and_hazards.md R190). -/

namespace Sys2Proof.Machine

/-- A fault raised in `s` is raised in `t`, with the same index. -/
def KeepsFlag (s t : State) : Prop := ∀ i, s.unwrittenRead = some i → t.unwrittenRead = some i

theorem KeepsFlag.of_eq {s t : State} (h : t.unwrittenRead = s.unwrittenRead) : KeepsFlag s t :=
  fun _ hi => h.trans hi

/-- With the flag kept, a good state comes from a good state. -/
theorem KeepsFlag.good {s t : State} (h : KeepsFlag s t) (ht : t.good) : s.good :=
  Option.eq_none_iff_forall_ne_some.2 fun i hi => Option.some_ne_none i ((h i hi).symm.trans ht)

theorem readBytes_keepsFlag (i n : Nat) (s : State) : KeepsFlag s (readBytes i n s).2 :=
  fun _ => readBytes_flag_some

/-- A command touches the flag only through the bytes it reads (R162, R167). -/
theorem Performs.keepsFlag {s u : State} {i : Instr} {code : ErrCode} (h : Performs s i code u) : KeepsFlag s u := by
  cases h with
  | keeps => exact .of_eq rfl
  | setsCrc => exact readBytes_keepsFlag 0 _ s
  | packs => exact readBytes_keepsFlag 0 _ (putHeader s)
  | records => exact readBytes_keepsFlag 0 _ s

theorem performWord_keepsFlag {s t : State} {w : Word} (h : performWord w s = .next t) : KeepsFlag s t := by
  obtain ⟨code, u, hw, hu⟩ := performWord_performs w s
  obtain rfl : complete code u = t := Host.Outcome.next.inj (hw.symm.trans h)
  rcases hu with rfl | ⟨i, -, hu⟩
  · exact .of_eq rfl
  · exact hu.keepsFlag

/-- No host write touches the flag. -/
theorem hostWrite_unwrittenRead (n : Width) (off : Offset) (v : Word) (s : State) :
    (hostWrite n off v s).unwrittenRead = s.unwrittenRead := by
  unfold hostWrite
  split
  · rfl
  · cases targetOf off with
    | _ => rfl

theorem readTarget_keepsFlag (n : Width) (s : State) (g : Target) : KeepsFlag s (readTarget n s g).2 := by
  by_cases hg : ∃ i, g = .buf i
  · obtain ⟨i, rfl⟩ := hg
    exact fun j hj => (congrArg State.unwrittenRead (readBuf_state i n.bytes s)).trans (readBytes_flag_some hj)
  · exact .of_eq (readTarget_unwrittenRead n s (not_exists.1 hg))

theorem busAccess_keepsFlag (a : Access) (s : State) : KeepsFlag s (busAccess a s).2 := by
  cases a with
  | write n off v =>
    simp only [busAccess]
    split
    · exact .of_eq (hostWrite_unwrittenRead n off v s)
    · exact .of_eq rfl
  | read n off =>
    simp only [busAccess]
    split
    · exact readTarget_keepsFlag n s (targetOf off)
    · exact .of_eq rfl

theorem hostTurn_keepsFlag (s : State) : KeepsFlag s (hostTurn s) := by
  rcases hostTurn_cases s with h | ⟨a, p, q, tr, h⟩
  · exact .of_eq (congrArg State.unwrittenRead h)
  · rw [h]
    exact busAccess_keepsFlag a { s with program := p }

theorem abortAccess_unwrittenRead (a : Access) (s : State) : (abortAccess a s).unwrittenRead = s.unwrittenRead := by
  cases a with
  | write n off v => rfl
  | read n off => rfl

/-- Reset clears the block, not the model's flag (R190). -/
theorem resetInAccessTurn_unwrittenRead (s : State) : (resetInAccessTurn s).unwrittenRead = s.unwrittenRead := by
  unfold resetInAccessTurn
  split
  · rfl
  · exact abortAccess_unwrittenRead _ _
  · exact abortAccess_unwrittenRead _ _

theorem step_keepsFlag {s t : State} (h : step s = .next t) : KeepsFlag s t := by
  obtain ⟨-, ⟨w, ts, -, -, hw⟩ | ⟨ts, -, rfl⟩ | ⟨ts, -, -, rfl⟩ | ⟨ts, -, rfl⟩ | ⟨ts, -, rfl⟩⟩ := step_cases h
  · exact performWord_keepsFlag (s := { s with turns := ts }) hw
  · exact hostTurn_keepsFlag { s with turns := ts }
  · exact .of_eq rfl
  · exact .of_eq rfl
  · exact .of_eq (resetInAccessTurn_unwrittenRead { s with turns := ts })

/-- Settles O51: each kind of step keeps the flag. -/
theorem faultFlagIsNeverCleared : Obligations.FaultFlagIsNeverCleared :=
  fun _ _ h => ⟨step_keepsFlag h, (step_keepsFlag h).good⟩

end Sys2Proof.Machine
end

section
/-! What the host has seen of BUSY (spec/70_reset_and_hazards.md R197). -/

namespace Sys2Proof.Machine

/-- A trace shows BUSY = 0 by its newest entry, a read of STATUS with DONE = 1 or BUSY = 0, or by the entries before,
where the newest is no write to CMD. -/
theorem seenIdle_cons {a : Access} {r : Response} {tr : List (Access × Response)} (h : seenIdle ((a, r) :: tr) = true) :
    (∃ v, a = pollAccess ∧ r = .data v ∧ (v.getLsbD 1 = true ∨ v.getLsbD 0 = false)) ∨
      seenIdle tr = true ∧ ∀ v, a = .write .w32 Config.offCmd v → r ≠ .ok := by
  unfold seenIdle at h
  split at h
  · next heq => cases heq
  · next off v tr' heq =>
    cases heq
    split at h
    · cases h
    · next hoff => exact .inr ⟨h, fun w hw => absurd (by cases hw; rfl) hoff⟩
  · next off v tr' heq =>
    cases heq
    split at h
    · next hseen => exact .inl ⟨v, by rw [hseen.1]; rfl, rfl, hseen.2⟩
    · exact .inr ⟨h, nofun⟩
  · next hwrite _ heq =>
    cases heq
    exact .inr ⟨h, fun v ha hr => hwrite _ _ (by rw [ha, hr])⟩

theorem target_eq_cmd {off : Offset} (h : targetOf off = .cmd) : off = Config.offCmd := by
  by_contra hne
  unfold targetOf at h
  rw [if_neg hne] at h
  repeat' split at h
  all_goals cases h

/-- Of the targets only CMD makes an idle block busy, by acceptance (R161). -/
theorem writeTarget_starts {n : Width} {v : Word} {s : State} {g : Target} (hb : s.busy = false)
    (h : (writeTarget n v s g).busy = true) : g = .cmd := by
  cases g with
  | cmd => rfl
  | _ => exact absurd (hb.symm.trans h) nofun

/-- Of the accesses only a write to CMD makes an idle block busy, and it takes the normal response (R161). -/
theorem busAccess_starts {a : Access} {s : State} (hb : s.busy = false) (h : (busAccess a s).2.busy = true) :
    ∃ v, a = .write .w32 Config.offCmd v ∧ (busAccess a s).1 = .ok := by
  cases a with
  | read n off =>
    obtain ⟨k, u, hs⟩ := busAccess_read_state n off s
    rw [hs] at h
    exact absurd (hb.symm.trans h) nofun
  | write n off v =>
    cases ha : busAllowed n off with
    | false =>
      rw [busAccess_write_refused ha] at h
      exact absurd (hb.symm.trans h) nofun
    | true =>
      have hwrite := busAccess_write_idle ha rfl hb v
      rw [hwrite] at h ⊢
      obtain rfl := target_eq_cmd (writeTarget_starts hb h)
      cases n with
      | w32 => exact ⟨v, rfl, rfl⟩
      | w8 => exact absurd ha (by decide)
      | w16 => exact absurd ha (by decide)

theorem hostWrite_draws_trace (n : Width) (off : Offset) (v : Word) (s : State) :
    (hostWrite n off v s).draws = s.draws ∧ (hostWrite n off v s).trace = s.trace := by
  unfold hostWrite
  split
  · exact ⟨rfl, rfl⟩
  · cases targetOf off with
    | _ => exact ⟨rfl, rfl⟩

theorem busAccess_trace (a : Access) (s : State) : (busAccess a s).2.trace = s.trace := by
  cases a with
  | read n off =>
    obtain ⟨k, u, hs⟩ := busAccess_read_state n off s
    rw [hs]
  | write n off v =>
    simp only [busAccess]
    split
    · exact (hostWrite_draws_trace n off v s).2
    · rfl

/-- A host turn is no access, or one access with its response entered; beside it only the program changes. -/
theorem hostTurn_hostAccess (s : State) :
    hostTurn s = s ∨ ∃ a p q, hostTurn s = { hostAccess a { s with program := p } with program := q } := by
  unfold hostTurn
  split
  · exact .inl rfl
  · next a rest _ => exact .inr ⟨a, rest, _, rfl⟩
  · split
    · exact .inr ⟨pollAccess, s.program, _, rfl⟩
    · exact .inr ⟨pollAccess, s.program, _, rfl⟩

theorem SeenIdleSound.of_idle {s : State} (h : s.busy = false) : SeenIdleSound s := fun _ => h

/-- A poll shows BUSY and DONE as they are, and DONE = 1 means idle (R161, R196). An earlier sight of BUSY = 0 lasts,
for only a write to CMD starts a command. -/
theorem SeenIdleSound.hostAccess {s : State} (h : SeenIdleSound s) (hinv : Inv s) (a : Access) :
    SeenIdleSound (hostAccess a s) := by
  intro hseen
  rcases seenIdle_cons hseen with ⟨v, rfl, hr, hv⟩ | ⟨hseen, ha⟩
  · obtain ⟨w, k, hdone, hbusy, hread⟩ := busAccess_poll s
    obtain rfl : w = v := Response.data.inj ((congrArg Prod.fst hread).symm.trans hr)
    have hkept : (Machine.hostAccess pollAccess s).busy = s.busy :=
      congrArg (fun r : Response × State => r.2.busy) hread
    rw [hkept]
    rcases hv with hv | hv
    · refine Bool.eq_false_iff.2 fun hb => ?_
      exact absurd ((hinv.busyClear hb).1.symm.trans (hdone.symm.trans hv)) nofun
    · exact hbusy.symm.trans hv
  · rw [busAccess_trace] at hseen
    refine Bool.eq_false_iff.2 fun hb => ?_
    obtain ⟨v, hcmd, hok⟩ := busAccess_starts (h hseen) hb
    exact ha v hcmd hok

theorem SeenIdleSound.hostTurn {s : State} (h : SeenIdleSound s) (hinv : Inv s) : SeenIdleSound (hostTurn s) := by
  rcases hostTurn_hostAccess s with hs | ⟨a, p, q, hs⟩
  · rw [hs]
    exact h
  · have hp : Inv { s with program := p } := hinv.congr rfl rfl rfl rfl rfl
    rw [hs]
    exact SeenIdleSound.hostAccess (s := { s with program := p }) h hp a

theorem abortAccess_busy (a : Access) (s : State) : (abortAccess a s).busy = s.busy := by
  cases a with
  | write n off v => rfl
  | read n off => rfl

theorem resetInAccessTurn_busy (s : State) : (resetInAccessTurn s).busy = false := by
  unfold resetInAccessTurn
  split
  · rfl
  · exact abortAccess_busy _ _
  · exact abortAccess_busy _ _

/-- Settles O53: a completion and a reset leave the block idle, and the host's turn keeps what it has seen. -/
theorem seenIdleStaysSound : Obligations.SeenIdleStaysSound := by
  intro s t hinv hs h
  obtain ⟨-, ⟨w, ts, -, -, hw⟩ | ⟨ts, -, rfl⟩ | ⟨ts, -, -, rfl⟩ | ⟨ts, -, rfl⟩ | ⟨ts, -, rfl⟩⟩ := step_cases h
  · obtain ⟨code, u, hu⟩ := performWord_completes w { s with turns := ts }
    obtain rfl : complete code u = t := Host.Outcome.next.inj (hu.symm.trans hw)
    exact .of_idle rfl
  · have hturns : Inv { s with turns := ts } := hinv.congr rfl rfl rfl rfl rfl
    exact SeenIdleSound.hostTurn (s := { s with turns := ts }) hs hturns
  · exact hs
  · exact .of_idle rfl
  · exact .of_idle (resetInAccessTurn_busy _)

end Sys2Proof.Machine
end

section
/-! Accesses that keep the software protocol (spec/70_reset_and_hazards.md R197). -/

namespace Sys2Proof.Machine

theorem readBytes_of_written {i n : Nat} {s : State} (h : ∀ k, k < n → s.buf.read (i + k) ≠ none) :
    (readBytes i n s).2 = s := by
  induction n generalizing i with
  | zero => rfl
  | succ n ih =>
    obtain ⟨b, hb : s.buf.read i = some b⟩ := Option.ne_none_iff_exists'.1 (h 0 (Nat.succ_pos n))
    rw [readBytes, readByte_written hb]
    exact ih fun k hk => by
      rw [Nat.add_assoc, Nat.add_comm 1 k]
      exact h (k + 1) (Nat.succ_lt_succ hk)

/-- An idle read changes nothing, where the bytes of BUF it covers are written (R54, R57). -/
theorem readTarget_idle {n : Width} {s : State} {g : Target} (hb : s.busy = false)
    (h : ∀ i k, g = .buf i → k < n.bytes → s.buf.read (i + k) ≠ none) : (readTarget n s g).2 = s := by
  cases g with
  | buf i =>
    simp only [readTarget, readBuf, hb, Bool.false_eq_true, if_false]
    exact readBytes_of_written fun k => h i k rfl
  | _ => simp only [readTarget, hb, Bool.false_eq_true, if_false]

/-- An access of an idle block draws no free value, where the bytes of BUF it reads are written (R196). -/
theorem busAccess_idle_draws {a : Access} {s : State} (hb : s.busy = false)
    (h : ∀ n off i k, a = .read n off → targetOf off = .buf i → k < n.bytes → s.buf.read (i + k) ≠ none) :
    (busAccess a s).2.draws = s.draws := by
  cases a with
  | write n off v =>
    simp only [busAccess]
    split
    · exact (hostWrite_draws_trace n off v s).1
    · rfl
  | read n off =>
    simp only [busAccess]
    split
    · exact congrArg State.draws (readTarget_idle hb fun i k => h n off i k rfl)
    · rfl

theorem step_hostAccess {s : State} {a : Access} {rest : List HostLine} {ts : List Turn} (h : s.hostMoves a rest ts) :
    step s = .next (hostAccess a { s with program := rest, turns := ts }) := by
  obtain ⟨hl, hp, hts⟩ := h
  rw [step_turn hl hts]
  simp only [takeTurn, hostTurn, hp]

/-- Settles O54: a sound sight of BUSY = 0 means an idle block, where no write sets BERR and no read draws. -/
theorem protocolKeepsBerrAndValues : Obligations.ProtocolKeepsBerrAndValues := by
  intro s t a rest ts hs hmoves _ hseen h
  have hb : s.busy = false := hs hseen
  refine ⟨fun hset => ?_, fun hwritten => ?_⟩
  · by_contra hclear
    obtain ⟨hberr, -⟩ := berrIsSetByBusyWritesOnly s t h
    obtain ⟨hbusy, -⟩ := (hberr (Bool.eq_false_iff.2 hclear)).1 hset
    exact absurd (hb.symm.trans hbusy) nofun
  · obtain rfl := Host.Outcome.next.inj ((step_hostAccess hmoves).symm.trans h)
    exact busAccess_idle_draws (s := { s with program := rest, turns := ts }) hb hwritten

end Sys2Proof.Machine
end

section
/-! Accesses while a command is in flight (spec/70_reset_and_hazards.md R195, R196). -/

namespace Sys2Proof.Machine

/-- An allowed read outside BUF returns some value and changes at most the number of draws (R57). -/
theorem busAccess_read_outside_buf {n : Width} {off : Offset} (ha : busAllowed n off = true) (hoff : inBuf off = false)
    (s : State) : ∃ v k, busAccess (.read n off) s = (.data v, { s with draws := k }) := by
  have hg (i : Nat) : targetOf off ≠ .buf i := fun hi => by
    obtain ⟨hat, hlt⟩ := target_buf_bound hi
    rw [inBuf_eq_false_iff] at hoff
    omega
  refine ⟨_, (readTarget n s (targetOf off)).2.draws, (busAccess_read ha rfl s).trans (congrArg (Prod.mk _) ?_)⟩
  rw [readTarget_state, readTarget_unwrittenRead n s hg]

/-- While a command is in flight STATUS reads its stored bits, EXC and EXCV as free values (R196). -/
theorem busAccess_read_status_busy {s : State} (hb : s.busy = true) : ∃ exc excv k,
    busAccess (.read .w32 Config.offStatus) s = (.data (statusWordWith exc excv s), { s with draws := k }) := by
  have hread := busAccess_read (n := .w32) (off := Config.offStatus) (g := .status) rfl rfl s
  simp only [readTarget, hb, if_true] at hread
  exact ⟨_, _, _, hread⟩

/-- Nothing is recorded while a command is in flight (R26, R161). -/
theorem Inv.errcode_of_busy {s : State} (h : Inv s) (hb : s.busy = true) : s.status.errcode = 0 := by
  by_contra hne
  exact absurd ((h.busyClear hb).2.symm.trans (h.errIff.2 hne)) nofun

/-- Settles O42: STATUS by its bits, the other registers by their targets. -/
theorem busyReadsFixTheseBits : Obligations.BusyReadsFixTheseBits := by
  intro s hinv hb
  obtain ⟨hdone, herr⟩ := hinv.busyClear hb
  obtain ⟨exc, excv, k, hstatus⟩ := busAccess_read_status_busy hb
  have hregs : ∀ off ∈ [0x008#12, 0x010#12, 0x014#12, 0x018#12], busAllowed .w32 off = true ∧ inBuf off = false := by
    decide
  exact ⟨busAccess_read (g := .cmd) rfl rfl s,
    ⟨_, k, hstatus, (statusWordWith_bit0 ..).trans hb,
      (statusWordWith_bit1 ..).trans hdone, (statusWordWith_bit2 ..).trans herr, statusWordWith_bit3 ..,
      statusWordWith_reserved_low .., (statusWordWith_errcode ..).trans (hinv.errcode_of_busy hb),
      statusWordWith_reserved_high ..⟩,
    ⟨hdrWord s.hdr, busAccess_read (g := .hdr) rfl rfl s, hdrWord_addr _, hdrWord_func _, hdrWord_upper _⟩,
    fun off hoff => busAccess_read_outside_buf (hregs off hoff).1 (hregs off hoff).2 s,
    fun off hal hoff => busAccess_read (g := .reserved) (busAllowed_w32 hal) (target_reserved hoff) s⟩

/-- Settles O34: the write only sets BERR. -/
theorem busyWriteIsDiscarded : Obligations.BusyWriteIsDiscarded := by
  intro s n off v rest ts h hb ha hoff
  exact step_hostMoves h (busAccess_write_busy (s := { s with program := rest, turns := ts }) ha hoff hb v)

end Sys2Proof.Machine
end

section
/-! Reset (spec/70_reset_and_hazards.md R190, R191). -/

namespace Sys2Proof.Machine

/-- Settles O46: each field of `State.reset` is written out. -/
theorem resetStateHoldsTheResetValues : Obligations.ResetStateHoldsTheResetValues :=
  ⟨rfl, rfl, rfl, rfl, rfl, rfl, rfl, fun _ => rfl, rfl, rfl⟩

/-- Settles O47: the turn is `resetBlock`. -/
theorem resetTurnResetsTheBlock : Obligations.ResetTurnResetsTheBlock := fun s ts hl hts =>
  ⟨resetBlock { s with turns := ts }, step_turn hl hts, rfl, rfl, rfl, rfl, rfl, rfl, rfl, fun _ => rfl, rfl, rfl, rfl,
    rfl, rfl⟩

/-- Settles O49: `inv_reset`, clause by clause. -/
theorem resetSatisfiesTheInvariant : Obligations.ResetSatisfiesTheInvariant := inv_reset

/-- An aborted access is entered in the trace; only a read returned a value, a fresh draw (R191; log 12). -/
theorem abortAccess_eq (a : Access) (s : State) :
    ∃ (o : Option Word) (k : Nat),
      abortAccess a s = { s with draws := k, trace := (a, .aborted o) :: s.trace } ∧
      (o = none ↔ ∃ n off v, a = .write n off v) := by
  cases a with
  | write n off v => exact ⟨none, s.draws, rfl, iff_of_true rfl ⟨n, off, v, rfl⟩⟩
  | read n off => exact ⟨some (draw s).1, (draw s).2.draws, rfl, iff_of_false nofun (fun ⟨_, _, _, h⟩ => nomatch h)⟩

/-- Settles O48, by the host's next line. -/
theorem resetCutsTheAccessShort : Obligations.ResetCutsTheAccessShort := by
  intro s ts hl hts
  have hstep : step s = .next (resetInAccessTurn { s with turns := ts }) := step_turn hl hts
  refine ⟨fun a rest hp => ?_, fun rest hp => ⟨(draw s).1, (draw s).2.draws, ?_⟩, fun hp => ?_⟩
  · obtain ⟨o, k, habort, ho⟩ := abortAccess_eq a (resetBlock { s with program := rest, turns := ts })
    refine ⟨o, k, hstep.trans ?_, ho⟩
    simp only [resetInAccessTurn, hp, habort]
    rfl
  · rw [hstep]
    simp only [resetInAccessTurn, hp]
    rfl
  · rw [hstep]
    simp only [resetInAccessTurn, hp]
    rfl

end Sys2Proof.Machine
end
